-- ==== Sys2Proof/Word.lean ====
section
/-! DEFINITION. The word of both ports and the index types of slots, channels and oscillators (R7, R201, R2). -/

namespace Sys2Proof

/-- Every transfer on the two ports is one whole 32-bit word, bit 31 the most significant (R7, R201);
a phase and a tuning word are 32-bit fractions of a cycle (R9). -/
abbrev Word := BitVec 32

/-- The four oscillator slots S0 to S3 (R2 (a)). -/
abbrev Slot := Fin 4

/-- A channel of FM mode: 0 is L and 1 is R (R443). -/
abbrev Chan := Fin 2

/-- One of the two SUB-mode oscillators, in slots S0 and S1 (R114, R442). -/
abbrev Osc := Fin 2

end Sys2Proof
end

