-- ==== Sys2Proof/Config.lean ====
section
/-! DEFINITION. What an implementation fixes (R6): the decided parameters as constants, the two OPEN ones
(sample rate and block size) as constants without a value, and the free input of the ENV agent. -/

namespace Sys2Proof

/-- The two parameters that R6 leaves OPEN. The functions that depend on them take them as an argument, so that
the spec's vectors (48000 Hz, 4 samples) can be evaluated; the machine itself runs at `Config.params`. -/
structure Params where
  /-- `P_FS`, the sample rate in Hz. -/
  sampleRate : Nat
  /-- `P_BLOCK`, samples per block. -/
  block : Nat
  deriving DecidableEq, Repr

/-- What R6 asks of the OPEN parameters: both are at least 1. -/
abbrev Params.Valid (P : Params) : Prop := 0 < P.sampleRate ∧ 0 < P.block

namespace Config

/-- `P_FS - 1`: OPEN (R6, D4). No value is given, so no proof can rest on one (log entry 1). -/
opaque sampleRatePred : Nat

/-- `P_BLOCK - 1`: OPEN (R6, D5). No value is given, so no proof can rest on one (log entry 2). -/
opaque blockPred : Nat

/-- The parameters of this machine: any two positive integers (R6). -/
def params : Params := ⟨sampleRatePred + 1, blockPred + 1⟩

/-- The ENV agent's `idle_in`, a free 1-bit input (a draw) of every sample step (R5, R12), applied to the number of
the draw (log entry 3). -/
opaque idleIn : Nat → Bool

/-- `P_QDEPTH`, the capacity of the command queue in words (R6). -/
def qDepth : Nat := 64
/-- `RATIO_MIN` (R6). -/
def ratioMin : Int := 1
/-- `RATIO_MAX` (R6). -/
def ratioMax : Int := 4096
/-- `MODIDX_MAX` (R6). -/
def modidxMax : Int := 16384
/-- `FB_MAX` (R6). -/
def fbMax : Int := 32767
/-- `PW_MIN` (R6, R472). -/
def pwMin : Int := 656
/-- `PW_MAX` (R6, R472). -/
def pwMax : Int := 64880
/-- `BENDRANGE_MAX` (R6). -/
def bendrangeMax : Int := 24
/-- 1.0 in UQ1.15, the upper bound of every gain (R9). -/
def gainOne : Int := 32768
/-- The largest sample of Q1.15 (R9). -/
def sampleMax : Int := 32767

end Config

end Sys2Proof
end

