-- ==== Sys2Proof/Syntax.lean ====
section
/-! DEFINITION. The command set DDSOSC-CMD v1: one constructor per row of the opcode table (R307), the command-error
codes (R601), and the names of the registers (R102 to R126). -/

namespace Sys2Proof

/-- A command with its fields as the formats N, B, R, M and Z lay them out (R301 to R305). Each field has the width
its format gives it, so a field value outside its range cannot be written down. -/
inductive Instr where
  /-- NOP, format Z (R520). -/
  | nop
  /-- NOTE_ON, format N (R301, R470). -/
  | noteOn (side : Bool) (note : BitVec 7) (vel : BitVec 7)
  /-- NOTE_OFF, format N (R301, R473). -/
  | noteOff (note : BitVec 7)
  /-- BEND, format B (R302, R474); `bval` is read as two's complement. -/
  | bend (bval : BitVec 15)
  /-- WREG, format R (R303, R490). -/
  | wreg (index : BitVec 8) (data : BitVec 20)
  /-- PHRST, format M (R304, R521). -/
  | phrst (pmask : BitVec 2) (smask : BitVec 4)
  /-- SRESET, format Z (R522). -/
  | sreset
  deriving DecidableEq, Repr

/-- The causes of a command error (R601). A word raises at most one (R602). -/
inductive CmdError where
  /-- Code 1: `w[31:28]` is 7 to 15. -/
  | illegalOpcode
  /-- Code 2: a reserved bit of the word, or a DATA bit at or above the target register's width. -/
  | reservedBits
  /-- Code 3: a WREG to an unmapped index. -/
  | badRegister
  /-- Code 4: a WREG to a read-only index. -/
  | readOnly
  /-- Code 5: a WREG to CTRL with a waveform code of 2 or 3. -/
  | illegalValue
  deriving DecidableEq, Repr

/-- The registers of the index map (R102 to R125, R207). The arrays carry their index as the spec numbers it. -/
inductive Reg where
  | ctrl | status | errcmd | voice | bend | bendrange | ratio | modidx | fb | vbdepth
  /-- ASYML (0) and ASYMR (1), R113. -/
  | asym (c : Chan)
  /-- `PWBxy`: the base pulse width of oscillator `y` for side `x`, R114. -/
  | pwb (side : Bool) (o : Osc)
  | pwkt | pwref | pwvel
  /-- PWEFF0 and PWEFF1, R116. -/
  | pweff (o : Osc)
  /-- DETUNE0 to DETUNE3, R117. -/
  | detune (s : Slot)
  /-- PHASE0 to PHASE3, R118. -/
  | phase (s : Slot)
  /-- FTW0 to FTW3, derived, R119. -/
  | ftw (s : Slot)
  /-- PREVL (0) and PREVR (1), R120. -/
  | prev (c : Chan)
  /-- VELAMP, derived, R121. -/
  | velamp
  | qlevel | blkpos | id
  /-- `NDS[n]`, R122. -/
  | nds (n : Fin 128)
  deriving DecidableEq, Repr

end Sys2Proof
end

