-- ==== Sys2Proof/WellFormed.lean ====
section
/-! DEFINITION. Which commands perform their operation. R308 names the words that cannot perform a command; of those, the
ones that still decode are WREGs whose INDEX, DATA width or value is not accepted. The check is written from the
ranges of R490, R493, R494 and R601 alone, apart from the machine's own register table, so that a statement can hold
the two against each other. -/

namespace Sys2Proof

/-- The indices a WREG may name: STATUS and the read-write registers of R493. -/
def wregIndexAccepted (i : Nat) : Bool :=
  i ≤ 0x01 || (0x05 ≤ i && i ≤ 0x12) || (0x18 ≤ i && i ≤ 0x1B) || 0x80 ≤ i

/-- The width of the register at a writable index (R493); STATUS takes DATA 0 or 1 only (R495). -/
def wregWidth (i : Nat) : Nat :=
  if i = 0x00 then 10
  else if i = 0x01 then 1
  else if i = 0x05 then 5
  else if i = 0x08 then 17
  else if i = 0x11 then 7
  else if 0x18 ≤ i && i ≤ 0x1B then 20
  else 16

/-- WAVE0 = `DATA[7:6]` and WAVE1 = `DATA[9:8]` are 0 or 1 (R494). -/
def wavesAccepted (d : Nat) : Bool := d / 64 % 4 < 2 && d / 256 % 4 < 2

/-- The command performs its operation rather than raising an error (R308). -/
def Instr.wellFormed : Instr → Bool
  | .nop => true
  | .noteOn _ _ _ => true
  | .noteOff _ => true
  | .bend _ => true
  | .wreg index data =>
      wregIndexAccepted index.toNat
        && data.toNat < 2 ^ wregWidth index.toNat
        && (index.toNat != 0x00 || wavesAccepted data.toNat)
  | .phrst _ _ => true
  | .sreset => true

end Sys2Proof
end

