-- ==== Sys2Proof/Decode.lean ====
section
/-! DEFINITION. Decoding of a command word, total on every 32-bit word (R306), and the encoder from the same formats
(R301 to R305, R307). -/

namespace Sys2Proof

/-- What a word decodes to: a command, or the error it raises at decode. -/
inductive Decoded where
  | instr (i : Instr)
  | error (e : CmdError)
  deriving DecidableEq, Repr

/-- `OP = w[31:28]` (R300). -/
def opcodeOf (w : Word) : Nat := (w.extractLsb' 28 4).toNat

/-- The reserved-bit mask `RESV(OP)` of R306. -/
def reservedMask : Nat → Word
  | 0 => 0x0FFFFFFF
  | 1 => 0x0FFF8000
  | 2 => 0x0FFFC07F
  | 3 => 0x0FFF8000
  | 4 => 0x00000000
  | 5 => 0x0FFFFFC0
  | _ => 0x0FFFFFFF

/-- The fields of a word whose opcode is legal and whose reserved bits are 0 (R301 to R305). -/
def fieldsOf (w : Word) : Nat → Instr
  | 0 => .nop
  | 1 => .noteOn (w.getLsbD 14) (w.extractLsb' 7 7) (w.extractLsb' 0 7)
  | 2 => .noteOff (w.extractLsb' 7 7)
  | 3 => .bend (w.extractLsb' 0 15)
  | 4 => .wreg (w.extractLsb' 20 8) (w.extractLsb' 0 20)
  | 5 => .phrst (w.extractLsb' 4 2) (w.extractLsb' 0 4)
  | _ => .sreset

/-- The decoding half of `Apply(w)` (R306): the opcode check comes before the reserved-bits check. -/
def decode (w : Word) : Decoded :=
  if 7 ≤ opcodeOf w then .error .illegalOpcode
  else if w &&& reservedMask (opcodeOf w) ≠ 0 then .error .reservedBits
  else .instr (fieldsOf w (opcodeOf w))

/-- The opcode of a command (R307). -/
def Instr.opcode : Instr → Nat
  | .nop => 0
  | .noteOn _ _ _ => 1
  | .noteOff _ => 2
  | .bend _ => 3
  | .wreg _ _ => 4
  | .phrst _ _ => 5
  | .sreset => 6

/-- The legal word of a command (R301 to R305, R307); reserved bits are 0. -/
def encode : Instr → Word
  | .nop => 0x0#4 ++ 0#28
  | .noteOn side note vel => 0x1#4 ++ 0#13 ++ BitVec.ofBool side ++ note ++ vel
  | .noteOff note => 0x2#4 ++ 0#14 ++ note ++ 0#7
  | .bend bval => 0x3#4 ++ 0#13 ++ bval
  | .wreg index data => 0x4#4 ++ index ++ data
  | .phrst pmask smask => 0x5#4 ++ 0#22 ++ pmask ++ smask
  | .sreset => 0x6#4 ++ 0#28

/-- The decoder on a word of the opcode table: bits at or above `nbits` are 0. Every command is exactly one 32-bit word
(R300), so a value that needs more than 32 bits is no command word (log entry 13). -/
def decodeTableWord (nbits w : Nat) : Option Instr :=
  if w % 2 ^ nbits < 2 ^ 32 then
    match decode (BitVec.ofNat 32 (w % 2 ^ nbits)) with
    | .instr i => some i
    | .error _ => none
  else none

end Sys2Proof
end

