-- ==== Sys2Proof/Machine/State.lean ====
section
/-! DEFINITION. All the state of one DDSOSC instance (R100 to R126) with its reset values (R700), the values on its
ports, and the model's own record of what the HOST does next. -/

namespace Sys2Proof.Machine

/-- Two like things, indexed by channel or oscillator. -/
structure Two (α : Type) where
  at0 : α
  at1 : α
  deriving DecidableEq, Repr

/-- Four like things, indexed by slot. -/
structure Four (α : Type) where
  at0 : α
  at1 : α
  at2 : α
  at3 : α
  deriving DecidableEq, Repr

/-- The registers and fields of 10_state.md that hold state, each at the width the register map gives it. These are
what SRESET sets (R522). FTW0 to FTW3, VELAMP, QLEVEL and ID are derived or constant and are not held (R101). -/
structure Regs where
  /-- CTRL, kept whole because WREG writes it and the read port reads it whole (R102). -/
  ctrl : BitVec 10
  /-- STATUS.ERR (R103). -/
  err : Bool
  /-- STATUS.ERRCODE (R103). -/
  errcode : BitVec 3
  /-- ERRCMD (R104). -/
  errcmd : Word
  /-- VOICE.NOTE, two's complement: 0 to 127, or -1 for none (R105). -/
  note : BitVec 8
  /-- VOICE.VEL (R105). -/
  vel : BitVec 7
  /-- VOICE.GATE (R105). -/
  gate : Bool
  /-- VOICE.ACTIVE (R105). -/
  active : Bool
  /-- VOICE.SIDE (R105). -/
  side : Bool
  /-- BEND, two's complement (R107). -/
  bend : BitVec 15
  /-- BENDRANGE (R108). -/
  bendrange : BitVec 5
  /-- RATIO, UQ8.8 (R109). -/
  ratio : BitVec 16
  /-- MODIDX, UQ4.12 (R110). -/
  modidx : BitVec 16
  /-- FB, Q1.15 in 17 bits, two's complement (R111). -/
  fb : BitVec 17
  /-- VBDEPTH, UQ1.15 (R112). -/
  vbdepth : BitVec 16
  /-- ASYML and ASYMR, UQ1.15 (R113). -/
  asym : Two (BitVec 16)
  /-- PWB00 and PWB01: the base pulse widths of side 0 (R114). -/
  pwbSide0 : Two (BitVec 16)
  /-- PWB10 and PWB11: the base pulse widths of side 1 (R114). -/
  pwbSide1 : Two (BitVec 16)
  /-- PWKT (R115). -/
  pwkt : BitVec 16
  /-- PWREF (R115). -/
  pwref : BitVec 7
  /-- PWVEL (R115). -/
  pwvel : BitVec 16
  /-- PWEFF0 and PWEFF1 (R116). -/
  pweff : Two (BitVec 16)
  /-- DETUNE0 to DETUNE3, two's complement (R117). -/
  detune : Four (BitVec 20)
  /-- PHASE0 to PHASE3 (R118). -/
  phase : Four Word
  /-- PREVL and PREVR, Q1.15, two's complement (R120). -/
  prev : Two (BitVec 16)
  /-- NDS[0] to NDS[127], UQ1.15 (R122). -/
  nds : Vector (BitVec 16) 128
  deriving DecidableEq, Repr

/-- The frame a sample step hands to the output ports (R11, R450). -/
structure Frame where
  /-- `out0`, Q1.15. -/
  out0 : Int
  /-- `out1`, Q1.15. -/
  out1 : Int
  /-- `gate_o`. -/
  gate : Bool
  /-- `active_o`. -/
  active : Bool
  /-- `velamp_o`, UQ1.15. -/
  velamp : Nat
  deriving DecidableEq, Repr

/-- What the HOST does at its ports (R203, R205, R311), and the choice to let the ENGINE go first. Which agent moves
next is the scheduler's choice (93_implementation_defined.md section 2): a list of these says it (log entry 4). -/
inductive HostAction where
  /-- HostPush(w) (R203). -/
  | push (w : Word)
  /-- HostRead(i) (R205). -/
  | read (i : BitVec 8)
  /-- The pseudo-instruction SYNC: HostRead(0x27), repeated until it returns 0 (R311). -/
  | sync
  /-- The HOST does nothing and the ENGINE takes one sample step. -/
  | wait
  deriving DecidableEq, Repr

/-- One DDSOSC instance between two actions. -/
structure State where
  /-- The registers. -/
  regs : Regs
  /-- Q, the command queue, oldest word first (R123). -/
  q : List Word
  /-- BLKPOS, the position of the next sample step within its block (R124). -/
  blkpos : Nat
  /-- The output ports: the frame of the last sample step (R450; log entry 6). -/
  frame : Frame
  /-- The read port: the value of the last HostRead (R205; log entry 7). -/
  rdData : Word
  /-- The model's own field: what the HOST does next, in order. When it is empty the ENGINE moves (log entry 4). -/
  script : List HostAction
  /-- The model's own field: how many draws of `idle_in` have been taken (log entry 3). -/
  draws : Nat
  deriving DecidableEq, Repr

/-- The machine never stops with a fault: R600 and R605 give every push, read and sample step a next state, and a
meaningless command word latches an error and goes on (R603, R604). So there is no fault to name. -/
inductive Fault where
  deriving DecidableEq, Repr

/-- Why an instruction has no next state in the model. -/
inductive Refusal where
  /-- Raised by an arm of `exec` whose instruction has no meaning yet; safe, because nothing can be proved of a run that
  meets it. No arm of this model raises it. -/
  | notModelled (mnemonic : String)
  deriving DecidableEq, Repr

/-- Every register and field at its reset value (R700). -/
def Regs.reset : Regs where
  ctrl := 0x146
  err := false
  errcode := 0
  errcmd := 0
  note := 0xFF
  vel := 0
  gate := false
  active := false
  side := false
  bend := 0
  bendrange := 7
  ratio := 256
  modidx := 0
  fb := 0
  vbdepth := 0
  asym := ⟨32768, 32768⟩
  pwbSide0 := ⟨32768, 32768⟩
  pwbSide1 := ⟨32768, 32768⟩
  pwkt := 0
  pwref := 60
  pwvel := 0
  pweff := ⟨32768, 32768⟩
  detune := ⟨0, 0, 0, 0⟩
  phase := ⟨0, 0, 0, 0⟩
  prev := ⟨0, 0⟩
  nds := Vector.replicate 128 32768

/-- Power-on (R700, R702): the registers at their reset values, Q empty and BLKPOS 0. The two port latches hold 0 and
the HOST has nothing to do yet (log entries 3, 4, 6 and 7). -/
def State.reset : State where
  regs := Regs.reset
  q := []
  blkpos := 0
  frame := ⟨0, 0, false, false, 0⟩
  rdData := 0
  script := []
  draws := 0

end Sys2Proof.Machine
end

