-- ==== Sys2Proof/Machine/Operands.lean ====
section
/-! DEFINITION. The arithmetic primitives (R8), operand assembly (R309, R492), the register index map (R102 to R126)
and the width, signedness and clamp of every writable register (R493). -/

namespace Sys2Proof.Machine

/-- `asr(v, n) = floor(v / 2^n)` (R8). Lean's Int division rounds toward minus infinity for a positive divisor. -/
def asr (v : Int) (n : Nat) : Int := v / 2 ^ n

/-- `clamp(v, lo, hi)` (R8). -/
def clamp (v lo hi : Int) : Int := if v < lo then lo else if hi < v then hi else v

/-- `mod32(v)`, also `u32(v)`, the 32-bit image of a value (R8). -/
def mod32 (v : Int) : Word := BitVec.ofInt 32 v

/-- `sext_n(v)`: the two's-complement reading of the low `n` bits (R8). -/
def sext {w : Nat} (n : Nat) (v : BitVec w) : Int := (v.setWidth n).toInt

/-- The register with index `i`; none where the index is unmapped (R126, R207). -/
def regOf (i : BitVec 8) : Option Reg :=
  match i.toNat with
  | 0x00 => some .ctrl
  | 0x01 => some .status
  | 0x02 => some .errcmd
  | 0x03 => some .voice
  | 0x04 => some .bend
  | 0x05 => some .bendrange
  | 0x06 => some .ratio
  | 0x07 => some .modidx
  | 0x08 => some .fb
  | 0x09 => some .vbdepth
  | 0x0A => some (.asym 0)
  | 0x0B => some (.asym 1)
  | 0x0C => some (.pwb false 0)
  | 0x0D => some (.pwb false 1)
  | 0x0E => some (.pwb true 0)
  | 0x0F => some (.pwb true 1)
  | 0x10 => some .pwkt
  | 0x11 => some .pwref
  | 0x12 => some .pwvel
  | 0x13 => some (.pweff 0)
  | 0x14 => some (.pweff 1)
  | 0x18 => some (.detune 0)
  | 0x19 => some (.detune 1)
  | 0x1A => some (.detune 2)
  | 0x1B => some (.detune 3)
  | 0x1C => some (.phase 0)
  | 0x1D => some (.phase 1)
  | 0x1E => some (.phase 2)
  | 0x1F => some (.phase 3)
  | 0x20 => some (.ftw 0)
  | 0x21 => some (.ftw 1)
  | 0x22 => some (.ftw 2)
  | 0x23 => some (.ftw 3)
  | 0x24 => some (.prev 0)
  | 0x25 => some (.prev 1)
  | 0x26 => some .velamp
  | 0x27 => some .qlevel
  | 0x28 => some .blkpos
  | 0x29 => some .id
  | n => if 0x80 ≤ n then some (.nds (Fin.ofNat 128 (n - 0x80))) else none

/-- The index of a register, from the register map of 10_state.md section 8. -/
def indexOf : Reg → BitVec 8
  | .ctrl => 0x00
  | .status => 0x01
  | .errcmd => 0x02
  | .voice => 0x03
  | .bend => 0x04
  | .bendrange => 0x05
  | .ratio => 0x06
  | .modidx => 0x07
  | .fb => 0x08
  | .vbdepth => 0x09
  | .asym c => 0x0A + BitVec.ofNat 8 c
  | .pwb side o => (if side then 0x0E else 0x0C) + BitVec.ofNat 8 o
  | .pwkt => 0x10
  | .pwref => 0x11
  | .pwvel => 0x12
  | .pweff o => 0x13 + BitVec.ofNat 8 o
  | .detune s => 0x18 + BitVec.ofNat 8 s
  | .phase s => 0x1C + BitVec.ofNat 8 s
  | .ftw s => 0x20 + BitVec.ofNat 8 s
  | .prev c => 0x24 + BitVec.ofNat 8 c
  | .velamp => 0x26
  | .qlevel => 0x27
  | .blkpos => 0x28
  | .id => 0x29
  | .nds n => 0x80 + BitVec.ofNat 8 n

/-- A row of R493: the register's width, whether DATA is two's complement, and the bounds of the clamp if it has one. -/
structure WriteRow where
  width : Nat
  signed : Bool
  bounds : Option (Int × Int)
  deriving DecidableEq, Repr

/-- The row of R493 of a read-write register; none for STATUS, which has its own write (R495), and for a register
that is read-only (R496). -/
def writeRow : Reg → Option WriteRow
  | .ctrl => some ⟨10, false, none⟩
  | .bendrange => some ⟨5, false, some (0, Config.bendrangeMax)⟩
  | .ratio => some ⟨16, false, some (Config.ratioMin, Config.ratioMax)⟩
  | .modidx => some ⟨16, false, some (0, Config.modidxMax)⟩
  | .fb => some ⟨17, true, some (-Config.fbMax, Config.fbMax)⟩
  | .vbdepth => some ⟨16, false, some (0, Config.gainOne)⟩
  | .asym _ => some ⟨16, false, some (0, Config.gainOne)⟩
  | .pwb _ _ => some ⟨16, false, none⟩
  | .pwkt => some ⟨16, false, none⟩
  | .pwref => some ⟨7, false, none⟩
  | .pwvel => some ⟨16, false, none⟩
  | .detune _ => some ⟨20, true, none⟩
  | .nds _ => some ⟨16, false, some (0, Config.gainOne)⟩
  | .status => none
  | .errcmd => none
  | .voice => none
  | .bend => none
  | .pweff _ => none
  | .phase _ => none
  | .ftw _ => none
  | .prev _ => none
  | .velamp => none
  | .qlevel => none
  | .blkpos => none
  | .id => none

/-- The width check of R491: no DATA bit at or above the register's width is set. -/
def WriteRow.fits (row : WriteRow) (data : BitVec 20) : Bool := data.toNat < 2 ^ row.width

/-- The value DATA stands for (R492). -/
def WriteRow.value (row : WriteRow) (data : BitVec 20) : Int :=
  if row.signed then sext row.width data else data.toNat

/-- The value that is stored: clamped where the row has bounds (R493). -/
def WriteRow.stored (row : WriteRow) (data : BitVec 20) : Int :=
  match row.bounds with
  | some (lo, hi) => clamp (row.value data) lo hi
  | none => row.value data

end Sys2Proof.Machine
end

