-- ==== Sys2Proof/Machine/Flags.lean ====
section
/-! DEFINITION. The fields of CTRL (R102), the flag STATUS.ERR with its code (R103, R127), the words of STATUS and VOICE
as they are read (R103, R105), and the interrupt line (R607). DDSOSC has no other flag. -/

namespace Sys2Proof.Machine

/-- CTRL.MODE: false is SUB mode, true is FM mode. -/
def Regs.fmMode (r : Regs) : Bool := r.ctrl.getLsbD 0
/-- CTRL.PMACC. -/
def Regs.pmacc (r : Regs) : Bool := r.ctrl.getLsbD 1
/-- CTRL.XFB. -/
def Regs.xfb (r : Regs) : Bool := r.ctrl.getLsbD 2
/-- CTRL.FBSRC. -/
def Regs.fbsrc (r : Regs) : Bool := r.ctrl.getLsbD 3
/-- CTRL.NRST. -/
def Regs.nrst (r : Regs) : Bool := r.ctrl.getLsbD 4
/-- CTRL.IRQEN. -/
def Regs.irqen (r : Regs) : Bool := r.ctrl.getLsbD 5

/-- CTRL.WAVE0 and CTRL.WAVE1: the waveform code of a SUB-mode oscillator. -/
def waveOf (ctrl : BitVec 10) : Osc → BitVec 2
  | 0 => ctrl.extractLsb' 6 2
  | 1 => ctrl.extractLsb' 8 2

/-- A waveform code that means nothing: 2 or 3 (R422). -/
def illegalWave (code : BitVec 2) : Bool := 2 ≤ code.toNat

/-- A CTRL value that R494 refuses. -/
def illegalCtrl (ctrl : BitVec 10) : Bool := illegalWave (waveOf ctrl 0) || illegalWave (waveOf ctrl 1)

/-- The ERRCODE of a cause (R601). -/
def errorCode : CmdError → BitVec 3
  | .illegalOpcode => 1
  | .reservedBits => 2
  | .badRegister => 3
  | .readOnly => 4
  | .illegalValue => 5

/-- STATUS as it is read: ERR in bit 0, ERRCODE in bits 3:1 (R103). -/
def statusWord (r : Regs) : Word := (r.errcode ++ BitVec.ofBool r.err).setWidth 32

/-- VOICE as it is read (R105). -/
def voiceWord (r : Regs) : Word :=
  (BitVec.ofBool r.side ++ BitVec.ofBool r.active ++ BitVec.ofBool r.gate ++ 0#1 ++ r.vel ++ r.note).setWidth 32

/-- `irq_o`, a level output: ERR and IRQEN (R607). -/
def irqOut (s : State) : Bool := s.regs.err && s.regs.irqen

end Sys2Proof.Machine
end

