-- ==== Sys2Proof/Machine/Ops.lean ====
section
/-! DEFINITION. The named operations over registers and queue. There is no memory (R200). Raising a command error is the
block's only exception (R10): `latchError` is its entry and `clearError` its return (R603, R606). -/

namespace Sys2Proof.Machine

/-- The element for channel or oscillator `i`. -/
def Two.get {α : Type} (t : Two α) : Fin 2 → α
  | 0 => t.at0
  | 1 => t.at1

/-- Replace the element for channel or oscillator `i`. -/
def Two.set {α : Type} (t : Two α) (i : Fin 2) (v : α) : Two α :=
  match i with
  | 0 => { t with at0 := v }
  | 1 => { t with at1 := v }

/-- The element for slot `i`. -/
def Four.get {α : Type} (t : Four α) : Fin 4 → α
  | 0 => t.at0
  | 1 => t.at1
  | 2 => t.at2
  | 3 => t.at3

/-- Replace the element for slot `i`. -/
def Four.set {α : Type} (t : Four α) (i : Fin 4) (v : α) : Four α :=
  match i with
  | 0 => { t with at0 := v }
  | 1 => { t with at1 := v }
  | 2 => { t with at2 := v }
  | 3 => { t with at3 := v }

/-- `NDS[n]` (R122). -/
def Regs.ndsAt (r : Regs) (n : Fin 128) : BitVec 16 := r.nds.get n

/-- `PWBxy`, the base pulse width of oscillator `y` for side `x` (R114). -/
def Regs.pwbAt (r : Regs) (side : Bool) (o : Osc) : BitVec 16 :=
  if side then r.pwbSide1.get o else r.pwbSide0.get o

/-- Store a value in a read-write register (the last line of R490). The value fits the register: R491 has checked its
width. Registers that WREG cannot write are left alone. -/
def Regs.write (r : Regs) (reg : Reg) (v : Int) : Regs :=
  match reg with
  | .ctrl => { r with ctrl := BitVec.ofInt 10 v }
  | .bendrange => { r with bendrange := BitVec.ofInt 5 v }
  | .ratio => { r with ratio := BitVec.ofInt 16 v }
  | .modidx => { r with modidx := BitVec.ofInt 16 v }
  | .fb => { r with fb := BitVec.ofInt 17 v }
  | .vbdepth => { r with vbdepth := BitVec.ofInt 16 v }
  | .asym c => { r with asym := r.asym.set c (BitVec.ofInt 16 v) }
  | .pwb false o => { r with pwbSide0 := r.pwbSide0.set o (BitVec.ofInt 16 v) }
  | .pwb true o => { r with pwbSide1 := r.pwbSide1.set o (BitVec.ofInt 16 v) }
  | .pwkt => { r with pwkt := BitVec.ofInt 16 v }
  | .pwref => { r with pwref := BitVec.ofInt 7 v }
  | .pwvel => { r with pwvel := BitVec.ofInt 16 v }
  | .detune s => { r with detune := r.detune.set s (BitVec.ofInt 20 v) }
  | .nds n => { r with nds := r.nds.set n.val (BitVec.ofInt 16 v) n.isLt }
  | .status => r
  | .errcmd => r
  | .voice => r
  | .bend => r
  | .pweff _ => r
  | .phase _ => r
  | .ftw _ => r
  | .prev _ => r
  | .velamp => r
  | .qlevel => r
  | .blkpos => r
  | .id => r

/-- Change the registers and nothing else. -/
def State.withRegs (s : State) (r : Regs) : State := { s with regs := r }

/-- `LatchError(code, w)`, written `raise CmdError(code, w)` in the rules: the first error since the last clear is
kept, a later one changes nothing (R603). -/
def latchError (e : CmdError) (w : Word) (s : State) : State :=
  if s.regs.err then s
  else s.withRegs { s.regs with err := true, errcode := errorCode e, errcmd := w }

/-- The return from an error, a STATUS write of 1: ERR, ERRCODE and ERRCMD become 0 (R495, R606). -/
def clearError (s : State) : State := s.withRegs { s.regs with err := false, errcode := 0, errcmd := 0 }

/-- Zero the phases that `smask` selects and the feedback values that `pmask` selects (R521). -/
def Regs.restart (r : Regs) (smask : BitVec 4) (pmask : BitVec 2) : Regs :=
  { r with
    phase := ⟨if smask.getLsbD 0 then 0 else r.phase.at0, if smask.getLsbD 1 then 0 else r.phase.at1,
      if smask.getLsbD 2 then 0 else r.phase.at2, if smask.getLsbD 3 then 0 else r.phase.at3⟩
    prev := ⟨if pmask.getLsbD 0 then 0 else r.prev.at0, if pmask.getLsbD 1 then 0 else r.prev.at1⟩ }

/-- `cmd_ready`: Q has room (R203). -/
def cmdReady (s : State) : Bool := s.q.length < Config.qDepth

/-- HostPush(w): the word is appended at the tail and nothing else changes (R203). It is enabled only when
`cmd_ready` is 1; the agent that uses it looks first. -/
def hostPush (w : Word) (s : State) : State := { s with q := s.q ++ [w] }

end Sys2Proof.Machine
end

