-- ==== Sys2Proof/Machine/Control.lean ====
section
/-! DEFINITION. The control commands NOP, PHRST and SRESET (R520 to R522). -/

namespace Sys2Proof.Machine

/-- NOP: no state changes (R520). -/
def execNop (s : State) : Host.Outcome State Fault Refusal := .next s

/-- PHRST: the selected phases and feedback values become 0 (R521). -/
def execPhrst (pmask : BitVec 2) (smask : BitVec 4) (s : State) : Host.Outcome State Fault Refusal :=
  .next (s.withRegs (s.regs.restart smask pmask))

/-- SRESET: every register and field of 10_state.md except Q and BLKPOS takes its reset value (R522, R701). -/
def execSreset (s : State) : Host.Outcome State Fault Refusal := .next (s.withRegs Regs.reset)

end Sys2Proof.Machine
end

