-- ==== Sys2Proof/Machine/Register.lean ====
section
/-! DEFINITION. The register write command WREG (R490 to R498). -/

namespace Sys2Proof.Machine

/-- The word of a WREG, which a raised error records in ERRCMD (R603): a WREG has no reserved bits, so its fields are the
whole word (R303; log entry 10). -/
def wregWord (index : BitVec 8) (data : BitVec 20) : Word := encode (.wreg index data)

/-- `StatusWrite(w, d)`: only bit 0 is writable, and it is write-1-to-clear (R495). -/
def statusWrite (w : Word) (data : BitVec 20) (s : State) : State :=
  if data &&& 0xFFFFE ≠ 0 then latchError .reservedBits w s
  else if data.getLsbD 0 then clearError s
  else s

/-- The checks and the store of a WREG to a read-write register, in the order of R490: width, illegal CTRL value,
clamp. -/
def writeChecked (w : Word) (reg : Reg) (row : WriteRow) (data : BitVec 20) (s : State) : State :=
  if !row.fits data then latchError .reservedBits w s
  else if reg = .ctrl && illegalCtrl (data.setWidth 10) then latchError .illegalValue w s
  else s.withRegs (s.regs.write reg (row.stored data))

/-- `WREG(w)` (R490). An index is never both unmapped and read-only, so those two checks may stand in either order
(R602). -/
def writeRegister (index : BitVec 8) (data : BitVec 20) (s : State) : State :=
  match regOf index with
  | none => latchError .badRegister (wregWord index data) s
  | some .status => statusWrite (wregWord index data) data s
  | some reg =>
    match writeRow reg with
    | none => latchError .readOnly (wregWord index data) s
    | some row => writeChecked (wregWord index data) reg row data s

/-- WREG (R490). -/
def execWreg (index : BitVec 8) (data : BitVec 20) (s : State) : Host.Outcome State Fault Refusal :=
  .next (writeRegister index data s)

end Sys2Proof.Machine
end

