-- ==== Sys2Proof/Machine/Voice.lean ====
section
/-! DEFINITION. The voice commands NOTE_ON, NOTE_OFF and BEND (R470 to R475). -/

namespace Sys2Proof.Machine

/-- The pulse width that a sounding NOTE_ON latches for oscillator `o` (R472). -/
def latchedWidth (r : Regs) (side : Bool) (note vel : BitVec 7) (o : Osc) : Int :=
  clamp ((r.pwbAt side o).toNat + r.pwkt.toNat * ((r.pwref.toNat : Int) - note.toNat)
      + (r.pwvel.toNat : Int) * (127 - vel.toNat) / 127)
    Config.pwMin Config.pwMax

/-- `PwLatch(n, v, sd)` (R472). -/
def pwLatch (r : Regs) (side : Bool) (note vel : BitVec 7) : Two (BitVec 16) :=
  ⟨BitVec.ofInt 16 (latchedWidth r side note vel 0), BitVec.ofInt 16 (latchedWidth r side note vel 1)⟩

/-- `NoteOffAction(n)`: GATE falls only if `n` is the assigned note; NOTE = -1 never is (R473). -/
def noteOffAction (note : BitVec 7) (s : State) : State :=
  if s.regs.note = note.setWidth 8 then s.withRegs { s.regs with gate := false } else s

/-- The part of NOTE_ON for a velocity other than 0: the voice is assigned, the pulse widths are latched, and with
CTRL.NRST = 1 all phases and feedback values restart (R470). A retrigger or a steal is no special case (R475). -/
def soundNote (side : Bool) (note vel : BitVec 7) (s : State) : State :=
  let assigned : Regs :=
    { s.regs with
      note := note.setWidth 8, vel := vel, side := side, gate := true, active := true
      pweff := pwLatch s.regs side note vel }
  s.withRegs (if s.regs.nrst then assigned.restart 0xF 0x3 else assigned)

/-- NOTE_ON (R470); velocity 0 is exactly a note-off (R471). -/
def execNoteOn (side : Bool) (note vel : BitVec 7) (s : State) : Host.Outcome State Fault Refusal :=
  .next (if vel = 0 then noteOffAction note s else soundNote side note vel s)

/-- NOTE_OFF (R473). -/
def execNoteOff (note : BitVec 7) (s : State) : Host.Outcome State Fault Refusal :=
  .next (noteOffAction note s)

/-- BEND: the sign-extended field clamped to plus or minus 8192 is stored (R474). -/
def execBend (bval : BitVec 15) (s : State) : Host.Outcome State Fault Refusal :=
  .next (s.withRegs { s.regs with bend := BitVec.ofInt 15 (clamp (sext 15 bval) (-8192) 8192) })

end Sys2Proof.Machine
end

