-- ==== Sys2Proof/Machine/Dispatch.lean ====
section
/-! DEFINITION. What each command does: one arm per row of the opcode table (the case of R306). -/

namespace Sys2Proof.Machine

def exec (i : Instr) (s : State) : Host.Outcome State Fault Refusal :=
  match i with
  | .nop => Sys2Proof.Machine.execNop s
  | .noteOn side note vel => Sys2Proof.Machine.execNoteOn side note vel s
  | .noteOff note => Sys2Proof.Machine.execNoteOff note s
  | .bend bval => Sys2Proof.Machine.execBend bval s
  | .wreg index data => Sys2Proof.Machine.execWreg index data s
  | .phrst pmask smask => Sys2Proof.Machine.execPhrst pmask smask s
  | .sreset => Sys2Proof.Machine.execSreset s

end Sys2Proof.Machine
end

