-- ==== Sys2Proof/Machine/Tables.lean ====
section
/-! DEFINITION. Table E of the pitch path (R403) and table T, the quarter-wave sine (R423), row by row as the spec lists
them. -/

namespace Sys2Proof.Machine

/-- Part 0 of table E. -/
def tableE0 : List Nat :=
  [2147483648, 2155250379, 2163045200, 2170868212, 2178719517, 2186599218, 2194507417, 2202444217] ++
  [2210409722, 2218404036, 2226427262, 2234479506, 2242560872, 2250671465, 2258811392, 2266980759] ++
  [2275179671, 2283408236, 2291666561, 2299954753, 2308272921, 2316621173, 2324999618, 2333408365] ++
  [2341847524, 2350317204, 2358817516, 2367348571, 2375910481, 2384503355, 2393127307, 2401782449] ++
  [2410468894, 2419186755, 2427936146, 2436717180, 2445529972, 2454374637, 2463251290, 2472160047] ++
  [2481101024, 2490074338, 2499080105, 2508118443, 2517189470, 2526293303, 2535430062, 2544599866] ++
  [2553802834, 2563039085, 2572308742, 2581611923, 2590948751, 2600319347, 2609723834, 2619162333] ++
  [2628634969, 2638141863, 2647683141, 2657258927, 2666869345, 2676514520, 2686194579, 2695909648] ++
  [2705659852, 2715445320, 2725266179, 2735122557, 2745014581, 2754942382, 2764906088, 2774905830]

/-- Part 1 of table E. -/
def tableE1 : List Nat :=
  [2784941738, 2795013942, 2805122574, 2815267765, 2825449648, 2835668356, 2845924021, 2856216777] ++
  [2866546760, 2876914102, 2887318939, 2897761407, 2908241642, 2918759781, 2929315960, 2939910317] ++
  [2950542991, 2961214119, 2971923842, 2982672298, 2993459627, 3004285971, 3015151470, 3026056265] ++
  [3037000500, 3047984316, 3059007858, 3070071267, 3081174689, 3092318269, 3103502151, 3114726482] ++
  [3125991407, 3137297074, 3148643630, 3160031222, 3171459999, 3182930111, 3194441706, 3205994934] ++
  [3217589947, 3229226895, 3240905930, 3252627205, 3264390871, 3276197082, 3288045993, 3299937757] ++
  [3311872529, 3323850466, 3335871723, 3347936457, 3360044825, 3372196984, 3384393094, 3396633314] ++
  [3408917802, 3421246719, 3433620226, 3446038483, 3458501653, 3471009898, 3483563382, 3496162267] ++
  [3508806718, 3521496900, 3534232978, 3547015118, 3559843487, 3572718252, 3585639580, 3598607641]

/-- Part 2 of table E. -/
def tableE2 : List Nat :=
  [3611622603, 3624684635, 3637793909, 3650950594, 3664154863, 3677406887, 3690706840, 3704054894] ++
  [3717451223, 3730896002, 3744389407, 3757931613, 3771522796, 3785163134, 3798852805, 3812591987] ++
  [3826380858, 3840219600, 3854108391, 3868047414, 3882036850, 3896076880, 3910167689, 3924309459] ++
  [3938502376, 3952746623, 3967042388, 3981389855, 3995789212, 4010240647, 4024744348, 4039300504] ++
  [4053909305, 4068570940, 4083285602, 4098053483, 4112874773, 4127749667, 4142678359, 4157661043] ++
  [4172697914, 4187789169, 4202935003, 4218135615, 4233391203, 4248701965, 4264068101, 4279489811] ++
  [4294967296]

/-- Table E: `E[k] = floor(2^31 * 2^(k/192) + 1/2)` for k = 0 to 192 (R403). -/
def tableE : List Nat := tableE0 ++ tableE1 ++ tableE2

/-- `E[k]` (R403). -/
def expEntry (k : Nat) : Nat := tableE.getD k 0

/-- Part 0 of table T. -/
def tableT0 : List Nat :=
  [0, 201, 402, 603, 804, 1005, 1206, 1407, 1608, 1809, 2009, 2210, 2410, 2611, 2811, 3012] ++
  [3212, 3412, 3612, 3811, 4011, 4210, 4410, 4609, 4808, 5007, 5205, 5404, 5602, 5800, 5998, 6195] ++
  [6393, 6590, 6786, 6983, 7179, 7375, 7571, 7767, 7962, 8157, 8351, 8545, 8739, 8933, 9126, 9319] ++
  [9512, 9704, 9896, 10087, 10278, 10469, 10659, 10849, 11039, 11228, 11417, 11605, 11793, 11980, 12167, 12353] ++
  [12539, 12725, 12910, 13094, 13279, 13462, 13645, 13828, 14010, 14191, 14372, 14553, 14732, 14912, 15090, 15269] ++
  [15446, 15623, 15800, 15976, 16151, 16325, 16499, 16673, 16846, 17018, 17189, 17360, 17530, 17700, 17869, 18037]

/-- Part 1 of table T. -/
def tableT1 : List Nat :=
  [18204, 18371, 18537, 18703, 18868, 19032, 19195, 19357, 19519, 19680, 19841, 20000, 20159, 20317, 20475, 20631] ++
  [20787, 20942, 21096, 21250, 21403, 21554, 21705, 21856, 22005, 22154, 22301, 22448, 22594, 22739, 22884, 23027] ++
  [23170, 23311, 23452, 23592, 23731, 23870, 24007, 24143, 24279, 24413, 24547, 24680, 24811, 24942, 25072, 25201] ++
  [25329, 25456, 25582, 25708, 25832, 25955, 26077, 26198, 26319, 26438, 26556, 26674, 26790, 26905, 27019, 27133] ++
  [27245, 27356, 27466, 27575, 27683, 27790, 27896, 28001, 28105, 28208, 28310, 28411, 28510, 28609, 28706, 28803] ++
  [28898, 28992, 29085, 29177, 29268, 29358, 29447, 29534, 29621, 29706, 29791, 29874, 29956, 30037, 30117, 30195]

/-- Part 2 of table T. -/
def tableT2 : List Nat :=
  [30273, 30349, 30424, 30498, 30571, 30643, 30714, 30783, 30852, 30919, 30985, 31050, 31113, 31176, 31237, 31297] ++
  [31356, 31414, 31470, 31526, 31580, 31633, 31685, 31736, 31785, 31833, 31880, 31926, 31971, 32014, 32057, 32098] ++
  [32137, 32176, 32213, 32250, 32285, 32318, 32351, 32382, 32412, 32441, 32469, 32495, 32521, 32545, 32567, 32589] ++
  [32609, 32628, 32646, 32663, 32678, 32692, 32705, 32717, 32728, 32737, 32745, 32752, 32757, 32761, 32765, 32766] ++
  [32767]

/-- Table T: `T[k] = floor(32767 * sin(pi/2 * k/256) + 1/2)` for k = 0 to 256 (R423). -/
def tableT : List Nat := tableT0 ++ tableT1 ++ tableT2

/-- `T[k]` (R423). -/
def sineEntry (k : Nat) : Nat := tableT.getD k 0

end Sys2Proof.Machine
end

