-- ==== Sys2Proof/Machine/Pitch.lean ====
section
/-! DEFINITION. The pitch path: note, bend and detune to the tuning word of a slot (R400 to R412). -/

namespace Sys2Proof.Machine

/-- `BENDQ = BEND * BENDRANGE * 8`, in units of 2^-16 semitone (R410). -/
def bendQ (r : Regs) : Int := r.bend.toInt * r.bendrange.toNat * 8

/-- `p(s)`, the pitch of a slot in units of 2^-16 semitone (R401). It is not clamped (R407). -/
def pitchOf (r : Regs) (s : Slot) : Int := r.note.toInt * 65536 + bendQ r + (r.detune.get s).toInt

/-- A modulator slot of FM mode: S1 or S3 (R443). -/
def isModulator (s : Slot) : Bool := s = 1 || s = 3

/-- `r(s)`, the ratio of a slot in UQ8.8: RATIO for the FM modulators, 1.0 for the rest (R405). -/
def ratioOf (r : Regs) (s : Slot) : Nat := if r.fmMode && isModulator s then r.ratio.toNat else 256

/-- `K_A4` for a sample rate: `440 * 2^48 / P_FS` rounded to nearest, halves up (R402). -/
def kA4 (fs : Nat) : Nat := (440 * 2 ^ 48 * 2 + fs) / (2 * fs)

/-- `q`, the octave of a pitch relative to A4 (R404). -/
def octaveOf (p : Int) : Int := (p - 69 * 65536) / 786432

/-- `rem`, the position of a pitch within its octave, 0 to 786431 (R404). -/
def withinOctave (p : Int) : Nat := ((p - 69 * 65536) - octaveOf p * 786432).toNat

/-- `m`, table E interpolated at the position within the octave (R404). -/
def mantissaOf (rem : Nat) : Nat :=
  let i := rem >>> 12
  let u := rem &&& 0xFFF
  expEntry i + (expEntry (i + 1) - expEntry i) * u / 4096

/-- The tuning word before its reduction modulo 2^32: `K_A4 * m * r / 2^sh` rounded to nearest, halves up
(R404). `sh` is 55 - q, between 48 and 64 for every pitch of R401 (log entry 11). -/
def unreducedFtw (fs : Nat) (p : Int) (ratio : Nat) : Nat :=
  let sh := (55 - octaveOf p).toNat
  (kA4 fs * mantissaOf (withinOctave p) * ratio + 2 ^ (sh - 1)) / 2 ^ sh

/-- `PitchToFtw(p, r)` (R404). -/
def pitchToFtw (fs : Nat) (p : Int) (ratio : Nat) : Word := BitVec.ofNat 32 (unreducedFtw fs p ratio)

/-- `FTW[s]`, evaluated from the current registers wherever it is used (R406, R101, R412). -/
def ftwOf (P : Params) (r : Regs) (s : Slot) : Word := pitchToFtw P.sampleRate (pitchOf r s) (ratioOf r s)

/-- The tuning words of all four slots. -/
def ftwAll (P : Params) (r : Regs) : Four Word := ⟨ftwOf P r 0, ftwOf P r 1, ftwOf P r 2, ftwOf P r 3⟩

/-- The cycles per second of a slot with a tuning word, `FTW * P_FS / 2^32` (R411). -/
def observedFrequency (P : Params) (ftw : Word) : Rat := (ftw.toNat * P.sampleRate : Rat) / 2 ^ 32

/-- `VELAMP = floor(VEL * 32768 / 127)` (R121). -/
def velampOf (r : Regs) : Nat := r.vel.toNat * 32768 / 127

end Sys2Proof.Machine
end

