-- ==== Sys2Proof/Machine/Waveform.lean ====
section
/-! DEFINITION. The waveform functions Sine and Pulse (R422 to R425). -/

namespace Sys2Proof.Machine

/-- Table T interpolated at a 22-bit quadrant position, 0 to 2^22 (R424). -/
def quarterSine (pos : Nat) : Int :=
  let i := pos >>> 14
  let f := pos &&& 0x3FFF
  if i = 256 then sineEntry 256
  else sineEntry i + ((sineEntry (i + 1) : Int) - sineEntry i) * f / 16384

/-- `Sine(phi)`: a Q1.15 sample from the upper 24 bits of the phase (R424). -/
def sine (phi : Word) : Int :=
  let ph := phi.toNat >>> 8
  let quad := ph >>> 22
  let pos := ph &&& 0x3FFFFF
  let v := quarterSine (if quad % 2 = 1 then 2 ^ 22 - pos else pos)
  if 2 ≤ quad then -v else v

/-- `Pulse(phi, pw)`: high for the first `pw / 65536` of the cycle (R425). -/
def pulse (phi : Word) (pw : Nat) : Int := if phi.toNat >>> 16 < pw then 32767 else -32767

/-- The waveform of a SUB-mode oscillator: code 0 is SINE and code 1 PULSE (R422); any other code, which can never be
stored (R494), takes the else branch of R442. -/
def waveform (code : BitVec 2) (phi : Word) (pw : Nat) : Int :=
  if code = 0 then sine phi else pulse phi pw

end Sys2Proof.Machine
end

