-- ==== Sys2Proof/Machine/Sample.lean ====
section
/-! DEFINITION. The computation of one sample in SUB mode and in FM mode (R440 to R450), after the drain. -/

namespace Sys2Proof.Machine

/-- What a sample computation leaves: the registers and the two output samples. -/
structure Sampled where
  regs : Regs
  out0 : Int
  out1 : Int
  deriving DecidableEq, Repr

/-- A slot's phase advanced by its tuning word, modulo 2^32 (R420). -/
def Regs.advance (r : Regs) (ftw : Four Word) (s : Slot) : Regs :=
  { r with phase := r.phase.set s (r.phase.get s + ftw.get s) }

/-- The sample of SUB-mode oscillator `o`, from the phase before its increment (R421, R442). -/
def subSample (r : Regs) : Osc → Int
  | 0 => waveform (waveOf r.ctrl 0) (r.phase.get 0) (r.pweff.get 0).toNat
  | 1 => waveform (waveOf r.ctrl 1) (r.phase.get 1) (r.pweff.get 1).toNat

/-- `SubStep()` (R442). -/
def subStep (ftw : Four Word) (r : Regs) : Sampled :=
  ⟨(r.advance ftw 0).advance ftw 1, subSample r 0, subSample r 1⟩

/-- The factors that an FM step computes once (R444). -/
structure FmFactors where
  nds : Int
  mi : Int
  deriving DecidableEq, Repr

/-- The velocity blend `vb` (R444). -/
def velocityBlend (r : Regs) : Int := 32768 - (r.vbdepth.toNat : Int) * (127 - r.vel.toNat) / 127

/-- `nds = NDS[NOTE]` (R444). NOTE is 0 to 127 whenever ACTIVE is 1; its low seven bits index the table
(log entry 9). -/
def notedScaling (r : Regs) : Int := (r.ndsAt (Fin.ofNat 128 r.note.toNat)).toNat

/-- The common factors of an FM step (R444). -/
def fmFactors (r : Regs) : FmFactors :=
  ⟨notedScaling r, asr (asr (r.modidx.toNat * velocityBlend r) 15 * notedScaling r) 15⟩

/-- The carrier slot of a channel (R443). -/
def carrierSlot : Chan → Slot
  | 0 => 0
  | 1 => 2

/-- The modulator slot of a channel (R443). -/
def modulatorSlot : Chan → Slot
  | 0 => 1
  | 1 => 3

/-- The other channel. -/
def otherChan : Chan → Chan
  | 0 => 1
  | 1 => 0

/-- `src[c]`: the other channel's stored value with XFB = 1, the channel's own with XFB = 0 (R445). -/
def feedbackSource (r : Regs) (c : Chan) : Int := (r.prev.get (if r.xfb then otherChan c else c)).toInt

/-- The feedback term `t3`: three products, each shifted right by 15 with truncation toward minus infinity (R446). -/
def feedbackTerm (src fb nds asym : Int) : Int := asr (asr (asr (src * fb) 15 * nds) 15 * asym) 15

/-- What one channel of an FM step computes: the raw modulator `m`, the modulating signal `s` and the sample `y`. -/
structure FmOut where
  m : Int
  s : Int
  y : Int
  deriving DecidableEq, Repr

/-- The modulator sample, feedback and carrier sample of a channel (R445 to R447). `pm` is added to the carrier's phase
before it is read, in both settings of PMACC. -/
def fmOut (k : FmFactors) (r : Regs) (c : Chan) : FmOut :=
  let m := sine (r.phase.get (modulatorSlot c))
  let t3 := feedbackTerm (feedbackSource r c) r.fb.toInt k.nds (r.asym.get c).toNat
  let s := clamp (m + t3) (-Config.sampleMax) Config.sampleMax
  ⟨m, s, sine (r.phase.get (carrierSlot c) + mod32 (s * k.mi * 32))⟩

/-- The phases a channel leaves (R447): with PMACC = 1 the modulation stays in the carrier's accumulator, with
PMACC = 0 it does not; then both of the channel's slots advance. -/
def fmPhases (k : FmFactors) (ftw : Four Word) (r : Regs) (c : Chan) : Regs :=
  let pm := mod32 ((fmOut k r c).s * k.mi * 32)
  let carrier := r.phase.get (carrierSlot c)
  let moved : Regs := { r with phase := r.phase.set (carrierSlot c) (if r.pmacc then carrier + pm else carrier) }
  (moved.advance ftw (carrierSlot c)).advance ftw (modulatorSlot c)

/-- Both channels in turn, the first one given first: each reads its own slots and the feedback memory of before the
step (R451). -/
def fmChannels (k : FmFactors) (ftw : Four Word) (r : Regs) (first second : Chan) : Regs :=
  fmPhases k ftw (fmPhases k ftw r first) second

/-- The stored previous-modulator value of a channel (R449). -/
def storedModulator (r : Regs) (o : FmOut) : BitVec 16 := BitVec.ofInt 16 (if r.fbsrc then o.m else o.s)

/-- `FmStep()`: channel L, then channel R, then the feedback memory of both is committed together (R443 to
R449). -/
def fmStep (ftw : Four Word) (r : Regs) : Sampled :=
  let k := fmFactors r
  let outL := fmOut k r 0
  let outR := fmOut k (fmPhases k ftw r 0) 1
  ⟨{ fmChannels k ftw r 0 1 with prev := ⟨storedModulator r outL, storedModulator r outR⟩ }, outL.y, outR.y⟩

/-- The sample of a step from the registers that the drain leaves (R440): nothing while the instance is inactive
(R441), else SUB or FM. Every tuning word is evaluated once, from those registers. -/
def computeSample (P : Params) (r : Regs) : Sampled :=
  if !r.active then ⟨r, 0, 0⟩
  else if r.fmMode then fmStep (ftwAll P r) r
  else subStep (ftwAll P r) r

/-- The end of the release: ACTIVE falls when it was 1 after the drain, GATE is 0 and the envelope reports idle
(R448). -/
def endRelease (wasActive idle : Bool) (r : Regs) : Regs :=
  if wasActive && !r.gate && idle then { r with active := false } else r

/-- The step after the drain (R440): the sample, the end of the release, the count within the block and the frame on
the output ports (R450). -/
def sampleStep (P : Params) (idle : Bool) (s : State) : State :=
  let y := computeSample P s.regs
  { s with
    regs := endRelease s.regs.active idle y.regs
    blkpos := (s.blkpos + 1) % P.block
    frame := ⟨y.out0, y.out1, s.regs.gate, s.regs.active, velampOf s.regs⟩ }

end Sys2Proof.Machine
end

