-- ==== Sys2Proof/Machine/Engine.lean ====
section
/-! DEFINITION. The ENGINE's action: the drain of the queue at a block boundary (R204, R208, R306) and the sample step
after it (R440). -/

namespace Sys2Proof.Machine

/-- Go on from a next state; a stop stays a stop. -/
def andThen (o : Host.Outcome State Fault Refusal) (f : State → Host.Outcome State Fault Refusal) :
    Host.Outcome State Fault Refusal :=
  match o with
  | .next s => f s
  | .fault e => .fault e
  | .refused e => .refused e

/-- `Apply(w)`: perform the command a word decodes to, or latch the error it raises (R306, R604). -/
def applyWord (w : Word) (s : State) : Host.Outcome State Fault Refusal :=
  match decode w with
  | .instr i => exec i s
  | .error e => .next (latchError e w s)

/-- Apply words in the order they were pushed, each to completion before the next (R204). An error does not stop the
drain (R604). -/
def applyAll : List Word → State → Host.Outcome State Fault Refusal
  | [], s => .next s
  | w :: ws, s => andThen (applyWord w s) (applyAll ws)

/-- The drain: every queued word is applied, then Q is empty (R204, R440). -/
def drain (s : State) : Host.Outcome State Fault Refusal :=
  andThen (applyAll s.q s) fun t => .next { t with q := [] }

/-- The state from which a step computes its sample: after the drain at a block boundary (BLKPOS = 0), and the state as
it is otherwise (R440). -/
def atBoundary (s : State) : Host.Outcome State Fault Refusal := if s.blkpos = 0 then drain s else .next s

/-- `Step(idle_in)` (R440): at a block boundary the queue is drained first. -/
def engineStep (P : Params) (idle : Bool) (s : State) : Host.Outcome State Fault Refusal :=
  andThen (atBoundary s) fun t => .next (sampleStep P idle t)

end Sys2Proof.Machine
end

