-- ==== Sys2Proof/Machine/Ports.lean ====
section
/-! DEFINITION. The register-read port (R205): what each register reads as. -/

namespace Sys2Proof.Machine

/-- The identification value (R125). -/
def idWord : Word := 0x0DD50001

/-- `u32(view(i))` for a register (R205): the field layouts of 10_state.md with unused bits 0, signed registers
sign-extended, derived values computed on the spot. -/
def view (P : Params) (s : State) : Reg → Word
  | .ctrl => s.regs.ctrl.setWidth 32
  | .status => statusWord s.regs
  | .errcmd => s.regs.errcmd
  | .voice => voiceWord s.regs
  | .bend => mod32 s.regs.bend.toInt
  | .bendrange => s.regs.bendrange.setWidth 32
  | .ratio => s.regs.ratio.setWidth 32
  | .modidx => s.regs.modidx.setWidth 32
  | .fb => mod32 s.regs.fb.toInt
  | .vbdepth => s.regs.vbdepth.setWidth 32
  | .asym c => (s.regs.asym.get c).setWidth 32
  | .pwb side o => (s.regs.pwbAt side o).setWidth 32
  | .pwkt => s.regs.pwkt.setWidth 32
  | .pwref => s.regs.pwref.setWidth 32
  | .pwvel => s.regs.pwvel.setWidth 32
  | .pweff o => (s.regs.pweff.get o).setWidth 32
  | .detune n => mod32 (s.regs.detune.get n).toInt
  | .phase n => s.regs.phase.get n
  | .ftw n => ftwOf P s.regs n
  | .prev c => mod32 (s.regs.prev.get c).toInt
  | .velamp => BitVec.ofNat 32 (velampOf s.regs)
  | .qlevel => BitVec.ofNat 32 s.q.length
  | .blkpos => BitVec.ofNat 32 s.blkpos
  | .id => idWord
  | .nds n => (s.regs.ndsAt n).setWidth 32

/-- HostRead(i): an unmapped index reads as 0 (R126, R205). -/
def hostRead (P : Params) (s : State) (i : BitVec 8) : Word :=
  match regOf i with
  | some reg => view P s reg
  | none => 0

end Sys2Proof.Machine
end

