-- ==== Sys2Proof/Machine/Agents.lean ====
section
/-! DEFINITION. Which agent moves next and what it does (R5, R203, R205, R311): the HOST's script, kept in State, says it.
Each action is atomic and every interleaving can be written as a script (93_implementation_defined.md section 2). -/

namespace Sys2Proof.Machine

/-- One sample step of the ENGINE with the next draw of `idle_in` (R12, R440; log entry 3). -/
def engineMove (s : State) : Host.Outcome State Fault Refusal :=
  engineStep Config.params (Config.idleIn s.draws) { s with draws := s.draws + 1 }

/-- A HostRead: the value appears on the read port and nothing else changes (R205; log entry 7). -/
def readMove (i : BitVec 8) (s : State) : State := { s with rdData := hostRead Config.params s i }

/-- One action of the machine. A push to a full queue has no step, so the HOST waits with it and the ENGINE, which is
never delayed, moves (R203, R621; log entry 5). SYNC reads QLEVEL and ends when it is 0; until then the ENGINE moves
between its reads (R210, R311). -/
def advance (s : State) : Host.Outcome State Fault Refusal :=
  match s.script with
  | [] => engineMove s
  | .wait :: rest => engineMove { s with script := rest }
  | .push w :: rest => if cmdReady s then .next (hostPush w { s with script := rest }) else engineMove s
  | .read i :: rest => .next (readMove i { s with script := rest })
  | .sync :: rest =>
    if hostRead Config.params s 0x27 = 0 then .next (readMove 0x27 { s with script := rest })
    else engineMove (readMove 0x27 s)

/-- The state in which the ENGINE's next action drains exactly the word `w`: it is at a block boundary, `w` is the
only queued word and the HOST lets the ENGINE move (log entry 8). -/
def loadWord (w : Word) (s : State) : State := { s with q := [w], blkpos := 0, script := [] }

end Sys2Proof.Machine
end

