-- ==== Sys2Proof/Machine/Step.lean ====
section
/-! DEFINITION. One step of the machine, and the placing of a command word where the next step takes it from. -/

namespace Sys2Proof.Machine

/-- One action of the HOST or the ENGINE. -/
def step (s : State) : Host.Outcome State Fault Refusal := advance s

/-- The command word `w` placed so that the very next step drains it. DDSOSC fetches nothing (R128); a word comes to run
by being pushed on Q and drained at a block boundary (log entry 8). -/
def State.withFetchWord (s : State) (nbits w : Nat) : State := loadWord (BitVec.ofNat 32 (w % 2 ^ nbits)) s

end Sys2Proof.Machine
end

