-- ==== Sys2Proof/Machine/Assembler.lean ====
section
/-! DEFINITION. The assembler syntax and its pseudo-instructions (R310, R311): a line of text, the operands it names, and
the command word it stands for. It is no part of the block; a program text becomes what the HOST does. -/

namespace Sys2Proof.Machine

/-- The register operand of a WREG line: a name of 10_state.md, or an index. -/
inductive RegOperand where
  | named (reg : Reg)
  | index (i : Int)
  deriving DecidableEq, Repr

/-- One line of R310 or R311. Operands are integers as written. -/
inductive AsmLine where
  | nop
  | noteOn (note vel side : Int)
  | noteOff (note : Int)
  | bend (bval : Int)
  | wreg (reg : RegOperand) (value : Int)
  | phrst (smask pmask : Int)
  | sreset
  | dotWord (value : Int)
  | clrerr
  | phrstall
  | setnds (n v : Int)
  | noteOnOff (note : Int)
  | sync
  deriving DecidableEq, Repr

/-- An operand that fits an unsigned field of `n` bits. -/
def fitsUnsigned (n : Nat) (v : Int) : Bool := 0 ≤ v && v < 2 ^ n

/-- The index an operand names. -/
def operandIndex : RegOperand → Option (BitVec 8)
  | .named reg => some (indexOf reg)
  | .index i => if fitsUnsigned 8 i then some (BitVec.ofInt 8 i) else none

/-- The width of the signed register with an index, if there is one there (R492). -/
def signedWidth (i : BitVec 8) : Option Nat :=
  match (regOf i).bind writeRow with
  | some row => if row.signed then some row.width else none
  | none => none

/-- The DATA of a WREG line: an unsigned number that fits the 20-bit field, or a negative one for a signed register in
two's complement of the register's width (R310; log entry 14). -/
def wregData (i : BitVec 8) (v : Int) : Option (BitVec 20) :=
  if fitsUnsigned 20 v then some (BitVec.ofInt 20 v)
  else
    match signedWidth i with
    | some n => if -(2 ^ (n - 1)) ≤ v && v < 0 then some (BitVec.ofInt 20 (2 ^ n + v)) else none
    | none => none

/-- The word of a line; none where an operand does not fit its field, except in `.word` (R310), and for SYNC, which is no
word (R311). DESIGN CHOICE: a `.word` operand outside 32 bits, a negative one among them, gives its image modulo 2^32 (log
entry 14). -/
def assemble : AsmLine → Option Word
  | .nop => some (encode .nop)
  | .noteOn note vel side =>
    if fitsUnsigned 7 note && fitsUnsigned 7 vel && fitsUnsigned 1 side then
      some (encode (.noteOn (side == 1) (BitVec.ofInt 7 note) (BitVec.ofInt 7 vel)))
    else none
  | .noteOff note => if fitsUnsigned 7 note then some (encode (.noteOff (BitVec.ofInt 7 note))) else none
  | .bend bval =>
    if -16384 ≤ bval && bval ≤ 16383 then some (encode (.bend (BitVec.ofInt 15 bval))) else none
  | .wreg reg value =>
    match operandIndex reg with
    | some i => (wregData i value).map fun d => encode (.wreg i d)
    | none => none
  | .phrst smask pmask =>
    if fitsUnsigned 4 smask && fitsUnsigned 2 pmask then
      some (encode (.phrst (BitVec.ofInt 2 pmask) (BitVec.ofInt 4 smask)))
    else none
  | .sreset => some (encode .sreset)
  | .dotWord value => some (mod32 value)
  | .clrerr => some (encode (.wreg 0x01 1))
  | .phrstall => some (encode (.phrst 0x3 0xF))
  | .setnds n v =>
    if fitsUnsigned 7 n && fitsUnsigned 20 v then
      some (encode (.wreg (0x80 + BitVec.ofInt 8 n) (BitVec.ofInt 20 v)))
    else none
  | .noteOnOff note => if fitsUnsigned 7 note then some (encode (.noteOn false (BitVec.ofInt 7 note) 0)) else none
  | .sync => none

/-- What the HOST does for a line: it pushes the line's word, or synchronises (R311). -/
def lineAction : AsmLine → Option HostAction
  | .sync => some .sync
  | line => (assemble line).map .push

/-! ### Text -/

/-- The text of a line before its comment. -/
def dropComment (text : List Char) : List Char := text.takeWhile (· != ';')

/-- A character that separates words. -/
def isBlank (c : Char) : Bool := c == ' ' || c == '\t' || c == '\r'

/-- Text without the blanks at its two ends. -/
def trim (text : List Char) : List Char := ((text.dropWhile isBlank).reverse.dropWhile isBlank).reverse

/-- The operands of a line, separated by commas and trimmed. -/
def splitOperands : List Char → List (List Char)
  | [] => [[]]
  | c :: rest =>
    match splitOperands rest with
    | [] => [[c]]
    | word :: others => if c == ',' then [] :: word :: others else (c :: word) :: others

/-- The value of a digit in a base up to 16. -/
def digitValue (base : Nat) (c : Char) : Option Nat :=
  let n := c.toNat
  let v := if 48 ≤ n && n ≤ 57 then n - 48 else if 97 ≤ n && n ≤ 102 then n - 87
    else if 65 ≤ n && n ≤ 70 then n - 55 else base
  if v < base then some v else none

/-- The digits of a number, read on from `acc`. -/
def readDigits (base : Nat) : List Char → Nat → Option Nat
  | [], acc => some acc
  | c :: rest, acc => (digitValue base c).bind fun d => readDigits base rest (acc * base + d)

/-- A number without a sign: decimal, or hexadecimal after `0x`. -/
def readNat : List Char → Option Nat
  | [] => none
  | '0' :: 'x' :: digits => if digits.isEmpty then none else readDigits 16 digits 0
  | digits => readDigits 10 digits 0

/-- A number, possibly negative. -/
def readInt : List Char → Option Int
  | '-' :: rest => (readNat rest).map fun n => -(n : Int)
  | text => (readNat text).map Int.ofNat

/-- The names of the control and status registers (10_state.md section 2). -/
def controlNames : List (String × Reg) :=
  [("CTRL", .ctrl), ("STATUS", .status), ("ERRCMD", .errcmd), ("VOICE", .voice), ("BEND", .bend),
    ("BENDRANGE", .bendrange), ("RATIO", .ratio), ("MODIDX", .modidx), ("FB", .fb), ("VBDEPTH", .vbdepth)]

/-- The names of the feedback and pulse-width registers (10_state.md section 2). -/
def widthNames : List (String × Reg) :=
  [("ASYML", .asym 0), ("ASYMR", .asym 1), ("PWB00", .pwb false 0), ("PWB01", .pwb false 1),
    ("PWB10", .pwb true 0), ("PWB11", .pwb true 1), ("PWKT", .pwkt), ("PWREF", .pwref), ("PWVEL", .pwvel),
    ("PWEFF0", .pweff 0), ("PWEFF1", .pweff 1)]

/-- The names of the registers of the slots (10_state.md section 3). -/
def slotNames : List (String × Reg) :=
  [("DETUNE0", .detune 0), ("DETUNE1", .detune 1), ("DETUNE2", .detune 2), ("DETUNE3", .detune 3),
    ("PHASE0", .phase 0), ("PHASE1", .phase 1), ("PHASE2", .phase 2), ("PHASE3", .phase 3),
    ("FTW0", .ftw 0), ("FTW1", .ftw 1), ("FTW2", .ftw 2), ("FTW3", .ftw 3)]

/-- The names of the remaining registers (10_state.md sections 4 and 6). -/
def otherNames : List (String × Reg) :=
  [("PREVL", .prev 0), ("PREVR", .prev 1), ("VELAMP", .velamp), ("QLEVEL", .qlevel), ("BLKPOS", .blkpos),
    ("ID", .id)]

/-- The register names of 10_state.md section 8; NDS has its own form. -/
def registerNames : List (String × Reg) := controlNames ++ widthNames ++ slotNames ++ otherNames

/-- `NDS[<n>]`. -/
def readNds (text : List Char) : Option RegOperand :=
  match text with
  | 'N' :: 'D' :: 'S' :: '[' :: rest =>
    match rest.reverse with
    | ']' :: digits =>
      (readNat digits.reverse).bind fun n => if n < 128 then some (.named (.nds (Fin.ofNat 128 n))) else none
    | _ => none
  | _ => none

/-- A register operand: a name, `NDS[<n>]` or an index. -/
def readReg (text : List Char) : Option RegOperand :=
  match registerNames.find? fun entry => entry.1.toList == text with
  | some entry => some (.named entry.2)
  | none =>
    match readNds text with
    | some reg => some reg
    | none => (readInt text).map .index

/-- A line from its mnemonic and operands, with the defaults of R310. -/
def readOperands (mnemonic : List Char) (operands : List (List Char)) : Option AsmLine :=
  if mnemonic = "WREG".toList then
    match operands with
    | [reg, value] => (readReg reg).bind fun r => (readInt value).map fun v => .wreg r v
    | _ => none
  else
    match operands.mapM readInt with
    | none => none
    | some [] =>
      if mnemonic = "NOP".toList then some .nop
      else if mnemonic = "SRESET".toList then some .sreset
      else if mnemonic = "CLRERR".toList then some .clrerr
      else if mnemonic = "PHRSTALL".toList then some .phrstall
      else if mnemonic = "SYNC".toList then some .sync
      else none
    | some [a] =>
      if mnemonic = "NOTE_OFF".toList then some (.noteOff a)
      else if mnemonic = "BEND".toList then some (.bend a)
      else if mnemonic = "PHRST".toList then some (.phrst a 0)
      else if mnemonic = ".word".toList then some (.dotWord a)
      else if mnemonic = "NOTE_ON_OFF".toList then some (.noteOnOff a)
      else none
    | some [a, b] =>
      if mnemonic = "NOTE_ON".toList then some (.noteOn a b 0)
      else if mnemonic = "PHRST".toList then some (.phrst a b)
      else if mnemonic = "SETNDS".toList then some (.setnds a b)
      else none
    | some [a, b, c] => if mnemonic = "NOTE_ON".toList then some (.noteOn a b c) else none
    | some _ => none

/-- A line that holds a command: the mnemonic first, then the operands (R310). -/
def readLine (text : List Char) : Option AsmLine :=
  let code := trim (dropComment text)
  let mnemonic := code.takeWhile (!isBlank ·)
  let rest := trim (code.dropWhile (!isBlank ·))
  readOperands mnemonic (if rest.isEmpty then [] else (splitOperands rest).map trim)

/-- A program text, one command per line, as what the HOST does in order; a line with no command does nothing. None where
a line cannot be read or an operand does not fit. -/
def assembleProgram : List (List Char) → Option (List HostAction)
  | [] => some []
  | line :: rest =>
    if (trim (dropComment line)).isEmpty then assembleProgram rest
    else
      match (readLine line).bind lineAction, assembleProgram rest with
      | some action, some actions => some (action :: actions)
      | _, _ => none

end Sys2Proof.Machine
end

