-- ==== Sys2Proof/Safety.lean ====
section
/-! DEFINITION. What a legal state is: the ranges that 10_state.md gives the registers (R102 to R124), the relations
between the voice bits (R105, R106) and the error fields (R103, R104), and the bounds of queue, block counter and output
frame. States outside it exist as data and no run from reset reaches them. -/

namespace Sys2Proof.Machine

/-- Every register within the range its rule gives it. -/
structure Regs.Legal (r : Regs) : Prop where
  /-- CTRL never holds a waveform code of 2 or 3 (R422, R494). -/
  waves : illegalCtrl r.ctrl = false
  /-- ERRCODE and ERRCMD are 0 while ERR is 0 (R103, R104). -/
  noError : r.err = false → r.errcode = 0 ∧ r.errcmd = 0
  /-- A latched code is 1 to 5; 6 and 7 are never produced (R601). -/
  latched : r.err = true → 1 ≤ r.errcode.toNat ∧ r.errcode.toNat ≤ 5
  /-- NOTE is 0 to 127, or -1 for none (R105). -/
  note : -1 ≤ r.note.toInt
  /-- A voice that has been assigned has a note and a velocity of at least 1; one that has not has neither (R105). -/
  assigned : r.note.toInt = -1 ↔ r.vel = 0
  /-- An active voice has a note (R444). -/
  sounding : r.active = true → 0 ≤ r.note.toInt
  /-- ACTIVE is 0 only when GATE is 0 (R106). -/
  gated : r.gate = true → r.active = true
  /-- R107. -/
  bend : -8192 ≤ r.bend.toInt ∧ r.bend.toInt ≤ 8192
  /-- R108. -/
  bendrange : r.bendrange.toNat ≤ 24
  /-- R109. -/
  ratio : 1 ≤ r.ratio.toNat ∧ r.ratio.toNat ≤ 4096
  /-- R110. -/
  modidx : r.modidx.toNat ≤ 16384
  /-- R111. -/
  fb : -32767 ≤ r.fb.toInt ∧ r.fb.toInt ≤ 32767
  /-- R112. -/
  vbdepth : r.vbdepth.toNat ≤ 32768
  /-- R113. -/
  asym : ∀ c, (r.asym.get c).toNat ≤ 32768
  /-- R116. -/
  pweff : ∀ o, 656 ≤ (r.pweff.get o).toNat ∧ (r.pweff.get o).toNat ≤ 64880
  /-- R120. -/
  prev : ∀ c, -32767 ≤ (r.prev.get c).toInt ∧ (r.prev.get c).toInt ≤ 32767
  /-- R122. -/
  nds : ∀ n, (r.ndsAt n).toNat ≤ 32768

/-- A frame on the output ports: samples of Q1.15, an amplitude of at most 1.0 (R9, R450), and silence while the
instance is inactive (R441). -/
structure Frame.Legal (f : Frame) : Prop where
  out0 : -32767 ≤ f.out0 ∧ f.out0 ≤ 32767
  out1 : -32767 ≤ f.out1 ∧ f.out1 ≤ 32767
  velamp : f.velamp ≤ 32768
  silent : f.active = false → f.out0 = 0 ∧ f.out1 = 0

/-- A legal state at given parameters. -/
structure State.Legal (P : Params) (s : State) : Prop where
  regs : s.regs.Legal
  /-- At most `P_QDEPTH` words are queued (R123). -/
  queue : s.q.length ≤ Config.qDepth
  /-- BLKPOS is 0 to `P_BLOCK - 1` (R124). -/
  blkpos : s.blkpos < P.block
  frame : s.frame.Legal

/-! ### What stays the same -/

/-- Every register outside `changed` reads the same in `t` as in `s`, at any parameters (R613: every architectural
value is observable on the read port). -/
def ReadsSameBut (changed : Reg → Bool) (s t : State) : Prop :=
  ∀ P reg, changed reg = false → view P t reg = view P s reg

/-- The queue, the block counter, the values on the ports and the model's own fields are the same. -/
structure KeepsRest (s t : State) : Prop where
  q : t.q = s.q
  blkpos : t.blkpos = s.blkpos
  frame : t.frame = s.frame
  rdData : t.rdData = s.rdData
  script : t.script = s.script
  draws : t.draws = s.draws

/-- The frame of a command: only the registers in `changed` may read differently. -/
structure ChangesOnly (changed : Reg → Bool) (s t : State) : Prop where
  reads : ReadsSameBut changed s t
  rest : KeepsRest s t

/-- What a sounding NOTE_ON may change: VOICE, the pulse widths and the values derived from NOTE and VEL, and with
NRST = 1 the phases and feedback values (R470). -/
def noteOnChanges (nrst : Bool) : Reg → Bool
  | .voice | .pweff _ | .ftw _ | .velamp => true
  | .phase _ | .prev _ => nrst
  | _ => false

/-- What BEND may change: BEND and the tuning words derived from it (R474). -/
def bendChanges : Reg → Bool
  | .bend | .ftw _ => true
  | _ => false

/-- What PHRST may change: the phases and feedback values its masks select (R521). -/
def phrstChanges (pmask : BitVec 2) (smask : BitVec 4) : Reg → Bool
  | .phase s => smask.getLsbD s
  | .prev c => pmask.getLsbD c
  | _ => false

/-- Which tuning words depend on a read-write register (R401, R405): all on BENDRANGE, those of the modulators on
CTRL (its MODE field) and RATIO, each on its own DETUNE. -/
def tunes (reg : Reg) (s : Slot) : Bool :=
  match reg with
  | .bendrange => true
  | .ctrl | .ratio => s = 1 || s = 3
  | .detune n => n = s
  | _ => false

/-- What a WREG may change: its register and the tuning words derived from it (R490, R497). -/
def wregChanges (reg : Reg) : Reg → Bool
  | .ftw s => tunes reg s
  | other => other = reg

/-- What a command error may change: the latch (R604). -/
def errorChanges : Reg → Bool
  | .status | .errcmd => true
  | _ => false

/-- What a sample step without a drain may change: phases, feedback values, ACTIVE and the block position (R440). -/
def sampleChanges : Reg → Bool
  | .phase _ | .prev _ | .voice | .blkpos => true
  | _ => false

/-- The frame of a sample taken from the state `u` that the drain leaves: what the sample may write is the phases, the
feedback values, ACTIVE and the block position (R440). -/
structure SampleFrame (u t : State) : Prop where
  reads : ReadsSameBut sampleChanges u t
  /-- The fields of VOICE other than ACTIVE. -/
  note : t.regs.note = u.regs.note
  vel : t.regs.vel = u.regs.vel
  side : t.regs.side = u.regs.side
  gate : t.regs.gate = u.regs.gate
  q : t.q = u.q
  rdData : t.rdData = u.rdData
  script : t.script = u.script
  draws : t.draws = u.draws

/-- The next action is a sample step of the ENGINE, with the script and the read port as the HOST's waiting leaves
them. -/
def EngineMoves (s : State) : Prop :=
  ∃ script rdData, step s = engineMove { s with script := script, rdData := rdData }

/-- The table of R493 on numbers: what register index `i` reads as after an accepted WREG of the DATA `d`. The two's
complement readings are written out: FB has 17 bits, DETUNE 20. -/
def wregReadBack (i d : Nat) : Int :=
  if i = 0x05 then min d 24
  else if i = 0x06 then max 1 (min d 4096)
  else if i = 0x07 then min d 16384
  else if i = 0x08 then max (-32767) (min 32767 (if d < 2 ^ 16 then d else d - 2 ^ 17))
  else if i = 0x09 || i = 0x0A || i = 0x0B || 0x80 ≤ i then min d 32768
  else if 0x18 ≤ i && i ≤ 0x1B then (if d < 2 ^ 19 then d else d - 2 ^ 20)
  else d

/-- Several sample steps of the ENGINE in a row, one for each given value of `idle_in`. -/
def engineRun (P : Params) : List Bool → State → Host.Outcome State Fault Refusal
  | [], s => .next s
  | idle :: rest, s => andThen (engineStep P idle s) (engineRun P rest)

end Sys2Proof.Machine
end

