-- ==== Sys2Proof/Certificates/Slice0/Obligations.lean ====
section
/-! DEFINITION. The statements about DDSOSC that are given to the provers. Each docstring names the rules of spec/ it comes
from. A statement about `Config.params` or `Config.idleIn` holds whatever their values are. -/

open Sys2Proof Sys2Proof.Machine

/-! ### Encoding -/

/-- R301 to R307: no bit of a command is lost in its word. -/
def Obligations.DecodeOfEncode : Prop := ∀ i : Instr, decode (encode i) = .instr i

/-- R306, R307: a word decodes to a command only if it is that command's one legal word. -/
def Obligations.LegalWordIsUnique : Prop := ∀ (w : Word) (i : Instr), decode w = .instr i → encode i = w

/-- R306: `Apply(w)`, with the opcode, the masks and the fields as numbers. -/
def Obligations.ApplyDecodesAndPerforms : Prop :=
  ∀ (w : Word) (s : State),
    (7 ≤ w.toNat / 2 ^ 28 → applyWord w s = .next (latchError .illegalOpcode w s)) ∧
    (w.toNat / 2 ^ 28 = 0 → w.toNat % 2 ^ 28 ≠ 0 → applyWord w s = .next (latchError .reservedBits w s)) ∧
    (w.toNat / 2 ^ 28 = 0 → w.toNat % 2 ^ 28 = 0 → applyWord w s = exec .nop s) ∧
    (w.toNat / 2 ^ 28 = 1 → w.toNat % 2 ^ 28 / 2 ^ 15 ≠ 0 →
      applyWord w s = .next (latchError .reservedBits w s)) ∧
    (w.toNat / 2 ^ 28 = 1 → w.toNat % 2 ^ 28 / 2 ^ 15 = 0 →
      applyWord w s = exec (.noteOn (w.toNat / 2 ^ 14 % 2 == 1) (BitVec.ofNat 7 (w.toNat / 2 ^ 7))
        (BitVec.ofNat 7 w.toNat)) s) ∧
    (w.toNat / 2 ^ 28 = 2 → (w.toNat % 2 ^ 28 / 2 ^ 14 ≠ 0 ∨ w.toNat % 2 ^ 7 ≠ 0) →
      applyWord w s = .next (latchError .reservedBits w s)) ∧
    (w.toNat / 2 ^ 28 = 2 → w.toNat % 2 ^ 28 / 2 ^ 14 = 0 → w.toNat % 2 ^ 7 = 0 →
      applyWord w s = exec (.noteOff (BitVec.ofNat 7 (w.toNat / 2 ^ 7))) s) ∧
    (w.toNat / 2 ^ 28 = 3 → w.toNat % 2 ^ 28 / 2 ^ 15 ≠ 0 →
      applyWord w s = .next (latchError .reservedBits w s)) ∧
    (w.toNat / 2 ^ 28 = 3 → w.toNat % 2 ^ 28 / 2 ^ 15 = 0 →
      applyWord w s = exec (.bend (BitVec.ofNat 15 w.toNat)) s) ∧
    (w.toNat / 2 ^ 28 = 4 →
      applyWord w s = exec (.wreg (BitVec.ofNat 8 (w.toNat / 2 ^ 20)) (BitVec.ofNat 20 w.toNat)) s) ∧
    (w.toNat / 2 ^ 28 = 5 → w.toNat % 2 ^ 28 / 2 ^ 6 ≠ 0 →
      applyWord w s = .next (latchError .reservedBits w s)) ∧
    (w.toNat / 2 ^ 28 = 5 → w.toNat % 2 ^ 28 / 2 ^ 6 = 0 →
      applyWord w s = exec (.phrst (BitVec.ofNat 2 (w.toNat / 2 ^ 4)) (BitVec.ofNat 4 w.toNat)) s) ∧
    (w.toNat / 2 ^ 28 = 6 → w.toNat % 2 ^ 28 ≠ 0 → applyWord w s = .next (latchError .reservedBits w s)) ∧
    (w.toNat / 2 ^ 28 = 6 → w.toNat % 2 ^ 28 = 0 → applyWord w s = exec .sreset s)

/-- Words of 95_test_vectors.md L2.1, one or more of each command. -/
def Obligations.VectorWordsDecode : Prop :=
  decode 0x00000000 = .instr .nop ∧
  decode 0x100022FF = .instr (.noteOn false 69 127) ∧
  decode 0x10005E40 = .instr (.noteOn true 60 64) ∧
  decode 0x20001E00 = .instr (.noteOff 60) ∧
  decode 0x30004000 = .instr (.bend (-16384)) ∧
  decode 0x4081C000 = .instr (.wreg 0x08 0x1C000) ∧
  decode 0x5000003F = .instr (.phrst 0x3 0xF) ∧
  decode 0x60000000 = .instr .sreset

/-! ### The step -/

/-- R204, R208, R306, R440: where the ENGINE moves at a block boundary with one word queued, the step performs the command the
word decodes to and takes its sample from the result; `withFetchWord` makes such a state. -/
def Obligations.StepRunsDecodedCommand : Prop :=
  (∀ (s : State) (w : Word) (i : Instr),
    (s.script = [] ∨ s.script.head? = some .wait) → s.blkpos = 0 → s.q = [w] → decode w = .instr i →
    ∃ t, exec i { s with script := s.script.tail, draws := s.draws + 1 } = .next t ∧
      step s = .next (sampleStep Config.params (Config.idleIn s.draws) { t with q := [] })) ∧
  ∀ (s : State) (w : Word),
    (s.withFetchWord 32 w.toNat).script = [] ∧ (s.withFetchWord 32 w.toNat).blkpos = 0 ∧
      (s.withFetchWord 32 w.toNat).q = [w]

/-- R204: the words of a queue are applied in push order, each to completion: draining a queue is draining its first part
and then, from the result, the rest. -/
def Obligations.DrainAppliesInPushOrder : Prop :=
  ∀ (ws vs : List Word) (s : State), ∃ t u,
    drain { s with q := ws } = .next t ∧ drain { t with q := vs } = .next u ∧
      drain { s with q := ws ++ vs } = .next u ∧ u.q = []

/-- R605: every push, read and step has a next state, and an error is latched only by a drain: where ERR rises, the ENGINE
moved, at a block boundary with a word in the queue; a push with room and a read leave every register. -/
def Obligations.StepAlwaysGoesOn : Prop :=
  ∀ s : State, ∃ t, step s = .next t ∧
    (s.regs.err = false → t.regs.err = true → EngineMoves s ∧ s.blkpos = 0 ∧ s.q ≠ []) ∧
    (∀ w rest, s.script = .push w :: rest → s.q.length < 64 → t.regs = s.regs) ∧
    (∀ i rest, s.script = .read i :: rest → t.regs = s.regs)

/-- R208, R209, R440: away from a block boundary a step leaves the queue and every register but the phases, the feedback
values, ACTIVE and BLKPOS. -/
def Obligations.MidBlockStepAppliesNothing : Prop :=
  ∀ (P : Params) (idle : Bool) (s : State), s.blkpos ≠ 0 →
    ∃ t, engineStep P idle s = .next t ∧ SampleFrame s t ∧ (t.regs.active = true → s.regs.active = true)

/-- R710, R208: the queued words wait for exactly the steps that remain of the block, and the step after those drains
them. -/
def Obligations.CommandLatencyIsAtMostOneBlock : Prop :=
  ∀ (P : Params) (s : State) (idles : List Bool), s.blkpos < P.block →
    idles.length = (P.block - s.blkpos) % P.block →
    ∃ t, engineRun P idles s = .next t ∧ t.q = s.q ∧ t.blkpos = 0 ∧
      ∀ idle, ∃ u, engineStep P idle t = .next u ∧ u.q = []

/-- R124, R440, R611: a step counts BLKPOS up modulo P_BLOCK, and no command changes it, the queue or a port. -/
def Obligations.BlockPositionCountsSteps : Prop :=
  (∀ (P : Params) (idle : Bool) (s t : State),
    engineStep P idle s = .next t → t.blkpos = (s.blkpos + 1) % P.block) ∧
  ∀ (i : Instr) (s t : State), exec i s = .next t → KeepsRest s t

/-- The headline invariant: every action keeps every register within the range its rule gives it (R102 to R122), the error
fields (R103, R104) and the voice bits (R105, R106) consistent, the queue within its capacity (R123), BLKPOS within the
block (R124) and the output frame within Q1.15 (R453). -/
def Obligations.StepKeepsLegalState : Prop :=
  ∀ s t : State, s.Legal Config.params → step s = .next t → t.Legal Config.params

/-- The reset state is legal (R700). Its clause on the output frame is the model's choice: the zeros that the ports show
before the first step are log entry 6. -/
def Obligations.ResetIsLegal : Prop := State.reset.Legal Config.params

/-- R106: an inactive voice has GATE 0, and every action keeps that. -/
def Obligations.StepKeepsGateOnlyWhileActive : Prop :=
  ∀ s t : State, (s.regs.active = false → s.regs.gate = false) → step s = .next t →
    (t.regs.active = false → t.regs.gate = false)

/-! ### The sample -/

/-- R441: where ACTIVE is 0 after the drain, the step emits silence and leaves every register. -/
def Obligations.InactiveStepIsSilent : Prop :=
  ∀ (P : Params) (idle : Bool) (s u : State), atBoundary s = .next u → u.regs.active = false →
    ∃ t, engineStep P idle s = .next t ∧ t.frame.out0 = 0 ∧ t.frame.out1 = 0 ∧ t.regs = u.regs ∧ t.q = u.q

/-- R442: a SUB-mode step, and what it leaves as the drain left it. -/
def Obligations.SubModeStep : Prop :=
  ∀ (P : Params) (idle : Bool) (s u : State), atBoundary s = .next u →
    u.regs.active = true → u.regs.ctrl.getLsbD 0 = false →
    ∃ t, engineStep P idle s = .next t ∧
      t.frame.out0 = (if u.regs.ctrl.toNat / 2 ^ 6 % 4 = 0 then sine (u.regs.phase.get 0)
        else pulse (u.regs.phase.get 0) (u.regs.pweff.get 0).toNat) ∧
      t.frame.out1 = (if u.regs.ctrl.toNat / 2 ^ 8 % 4 = 0 then sine (u.regs.phase.get 1)
        else pulse (u.regs.phase.get 1) (u.regs.pweff.get 1).toNat) ∧
      (∀ n : Slot, t.regs.phase.get n =
        if n = 0 ∨ n = 1 then u.regs.phase.get n + ftwOf P u.regs n else u.regs.phase.get n) ∧
      t.regs.prev = u.regs.prev ∧ SampleFrame u t

/-- R444 to R447, R449: one channel of an FM step, with each product and shift written as floor division. `c` is the channel,
`cs` its carrier slot and `ms` its modulator slot (R443). The rest stays as the drain left it (R440). -/
def Obligations.FmModeStep : Prop :=
  ∀ (P : Params) (idle : Bool) (s u : State), atBoundary s = .next u →
    u.regs.active = true → u.regs.ctrl.getLsbD 0 = true → 0 ≤ u.regs.note.toInt →
    ∃ t, engineStep P idle s = .next t ∧ SampleFrame u t ∧
      ∀ (c : Chan) (cs ms : Slot), cs.val = 2 * c.val → ms.val = 2 * c.val + 1 →
        let nds : Int := (u.regs.ndsAt (Fin.ofNat 128 u.regs.note.toNat)).toNat
        let vb : Int := 32768 - (u.regs.vbdepth.toNat : Int) * (127 - u.regs.vel.toNat) / 127
        let mi : Int := (u.regs.modidx.toNat : Int) * vb / 32768 * nds / 32768
        let m : Int := sine (u.regs.phase.get ms)
        let src : Int := (u.regs.prev.get (if u.regs.ctrl.getLsbD 2 then 1 - c else c)).toInt
        let t3 : Int := src * u.regs.fb.toInt / 32768 * nds / 32768 * (u.regs.asym.get c).toNat / 32768
        let sg : Int := max (-32767) (min 32767 (m + t3))
        let pm : Word := BitVec.ofInt 32 (sg * mi * 32)
        (if c = 0 then t.frame.out0 else t.frame.out1) = sine (u.regs.phase.get cs + pm) ∧
        t.regs.phase.get cs = u.regs.phase.get cs + ftwOf P u.regs cs
          + (if u.regs.ctrl.getLsbD 1 then pm else 0) ∧
        t.regs.phase.get ms = u.regs.phase.get ms + ftwOf P u.regs ms ∧
        (t.regs.prev.get c).toInt = if u.regs.ctrl.getLsbD 3 then m else sg

/-- R448: the end of the release, in SUB and FM mode alike; the step that ends it still emits the sample it computed. -/
def Obligations.ReleaseEndsOnIdle : Prop :=
  ∀ (P : Params) (idle : Bool) (s u : State), atBoundary s = .next u →
    ∃ t, engineStep P idle s = .next t ∧
      t.regs.active = (u.regs.active && (u.regs.gate || !idle)) ∧
      t.regs.gate = u.regs.gate ∧
      t.frame.out0 = (computeSample P u.regs).out0 ∧ t.frame.out1 = (computeSample P u.regs).out1

/-- R450, R121: the other output ports show GATE, ACTIVE and VELAMP as the drain leaves them. -/
def Obligations.OutputPortsFollowDrain : Prop :=
  ∀ (P : Params) (idle : Bool) (s u : State), atBoundary s = .next u →
    ∃ t, engineStep P idle s = .next t ∧ t.frame.gate = u.regs.gate ∧ t.frame.active = u.regs.active ∧
      t.frame.velamp = u.regs.vel.toNat * 32768 / 127

/-- R442, R405: what a SUB-mode step emits and leaves in PHASE0 and PHASE1 is fixed by CTRL, the pitch inputs, the pulse
widths, and the phases and detunes of S0 and S1: S2, S3, the feedback memory and every FM register are not read. -/
def Obligations.SubModeIgnoresFmState : Prop :=
  ∀ (P : Params) (r r' : Regs), r.active = true → r'.active = true → r.fmMode = false →
    r'.ctrl = r.ctrl → r'.note = r.note → r'.bend = r.bend → r'.bendrange = r.bendrange → r'.pweff = r.pweff →
    (∀ n : Slot, n.val < 2 → r'.phase.get n = r.phase.get n ∧ r'.detune.get n = r.detune.get n) →
    (computeSample P r').out0 = (computeSample P r).out0 ∧
      (computeSample P r').out1 = (computeSample P r).out1 ∧
      ∀ n : Slot, n.val < 2 → (computeSample P r').regs.phase.get n = (computeSample P r).regs.phase.get n

/-- R451: channel R before channel L gives the same registers, modulators, modulating signals and samples. -/
def Obligations.ChannelOrderDoesNotMatter : Prop :=
  ∀ (k : FmFactors) (ftw : Four Word) (r : Regs),
    fmChannels k ftw r 0 1 = fmChannels k ftw r 1 0 ∧
      fmOut k (fmPhases k ftw r 0) 1 = fmOut k r 1 ∧ fmOut k (fmPhases k ftw r 1) 0 = fmOut k r 0

/-- R446: the feedback term is no larger than the value fed back. -/
def Obligations.FeedbackTermIsContractive : Prop :=
  ∀ (src fb nds asym : Int), -32767 ≤ fb → fb ≤ 32767 → 0 ≤ nds → nds ≤ 32768 → 0 ≤ asym → asym ≤ 32768 →
    |feedbackTerm src fb nds asym| ≤ |src|

/-- R444: the velocity blend is at most 1.0, exactly 1.0 at velocity 127, and the effective modulation index is at most
4 cycles. -/
def Obligations.ModulationIndexIsBounded : Prop :=
  ∀ r : Regs, r.Legal →
    0 ≤ velocityBlend r ∧ velocityBlend r ≤ 32768 ∧ (r.vel = 127 → velocityBlend r = 32768) ∧
      0 ≤ (fmFactors r).mi ∧ (fmFactors r).mi ≤ 16384

/-! ### Waveforms -/

/-- R423, R424, R426: what Sine is (table T is its formula rounded to nearest, halves up, over the real numbers, and Sine is
its linear interpolation, mirrored and negated by quadrant), the ranges of the waveforms, where the sine reaches its
extremes, and what is emitted. -/
def Obligations.WaveformRange : Prop :=
  (∀ k : Nat, k ≤ 256 →
    (sineEntry k : Int) = ⌊(32767 : ℝ) * Real.sin (Real.pi / 2 * ((k : ℝ) / 256)) + 1 / 2⌋) ∧
  (∀ phi : Word,
    let quad := phi.toNat / 2 ^ 30
    let part := phi.toNat / 2 ^ 8 % 2 ^ 22
    let pos := if quad = 1 ∨ quad = 3 then 2 ^ 22 - part else part
    let below : Int := sineEntry (pos / 2 ^ 14)
    let above : Int := sineEntry (pos / 2 ^ 14 + 1)
    let v := if pos = 2 ^ 22 then (sineEntry 256 : Int) else below + (above - below) * (pos % 2 ^ 14 : Nat) / 2 ^ 14
    sine phi = if quad = 2 ∨ quad = 3 then -v else v) ∧
  (∀ phi : Word, -32767 ≤ sine phi ∧ sine phi ≤ 32767) ∧
  (∀ (phi : Word) (pw : Nat), pulse phi pw = 32767 ∨ pulse phi pw = -32767) ∧
  (∀ phi : Word, sine phi = 32767 ↔ phi.toNat / 2 ^ 8 = 2 ^ 22) ∧
  (∀ phi : Word, sine phi = -32767 ↔ phi.toNat / 2 ^ 8 = 3 * 2 ^ 22) ∧
  ∀ (P : Params) (idle : Bool) (s t : State), engineStep P idle s = .next t →
    (-32767 ≤ t.frame.out0 ∧ t.frame.out0 ≤ 32767) ∧ -32767 ≤ t.frame.out1 ∧ t.frame.out1 ≤ 32767

/-- R427 (a): the half-cycle antisymmetry. -/
def Obligations.SineHalfCycleAntisymmetry : Prop := ∀ phi : Word, sine (phi + 0x80000000) = -sine phi

/-- R427 (b): the reflections, at phases that are multiples of 256. -/
def Obligations.SineReflections : Prop :=
  ∀ phi : Word, phi.toNat % 256 = 0 → sine (0x80000000 - phi) = sine phi ∧ sine (-phi) = -sine phi

/-- R427 (c): the sine is nondecreasing on the first quarter. -/
def Obligations.SineRisesOnFirstQuarter : Prop :=
  ∀ phi psi : Word, phi.toNat ≤ psi.toNat → psi.toNat ≤ 2 ^ 30 → sine phi ≤ sine psi

/-- R425: a pulse is high for exactly the first `pw / 65536` of the cycle. -/
def Obligations.PulseIsHighForItsWidth : Prop :=
  ∀ (phi : Word) (pw : Nat), (pulse phi pw = 32767 ↔ phi.toNat < pw * 65536) ∧
    (pulse phi pw = -32767 ↔ pw * 65536 ≤ phi.toNat)

/-- R403: table E is its formula rounded to nearest, halves up, over the real numbers. -/
def Obligations.TableEIsRoundedExponential : Prop :=
  ∀ k : Nat, k ≤ 192 → (expEntry k : Int) = ⌊(2 : ℝ) ^ 31 * (2 : ℝ) ^ ((k : ℝ) / 192) + 1 / 2⌋

/-! ### Pitch -/

/-- R401, R405, R406, R410: the pitch of a slot and its range over all legal registers, and the tuning word of a slot, in
every register file: the ratio is RATIO for S1 and S3 in FM mode and 1.0 otherwise. -/
def Obligations.PitchFormulaAndRange : Prop :=
  (∀ (P : Params) (r : Regs) (s : Slot),
    ftwOf P r s = pitchToFtw P.sampleRate (pitchOf r s)
      (if r.ctrl.getLsbD 0 = true ∧ (s = 1 ∨ s = 3) then r.ratio.toNat else 256)) ∧
  ∀ (r : Regs) (s : Slot), r.Legal →
    pitchOf r s = r.note.toInt * 65536 + r.bend.toInt * r.bendrange.toNat * 8 + (r.detune.get s).toInt ∧
      -33 * 65536 ≤ pitchOf r s ∧ pitchOf r s < 159 * 65536

/-- R402: `K_A4` is `440 * 2^48 / P_FS` rounded to nearest, halves up, and the two values the rule gives. -/
def Obligations.TuningConstantIsRounded : Prop :=
  (∀ fs : Nat, 0 < fs →
    (kA4 fs : Int) = ⌊(440 * 2 ^ 48 : ℚ) / fs + 1 / 2⌋) ∧
  kA4 48000 = 2580187286514 ∧ kA4 44100 = 2808367114573

/-- R404: the intermediate values lie where the rule says, for every pitch of R401. -/
def Obligations.PitchIntermediatesInRange : Prop :=
  ∀ p : Int, -33 * 65536 ≤ p → p < 159 * 65536 →
    -9 ≤ octaveOf p ∧ octaveOf p ≤ 7 ∧ withinOctave p < 786432 ∧
      2 ^ 31 ≤ mantissaOf (withinOctave p) ∧ mantissaOf (withinOctave p) < 2 ^ 32

/-- R404: the tuning word, with octave, position and mantissa written out: the exact scaled product rounded to nearest,
halves up, reduced modulo 2^32. -/
def Obligations.TuningWordIsRounded : Prop :=
  ∀ (fs : Nat) (p : Int) (ratio : Nat), -33 * 65536 ≤ p → p < 159 * 65536 →
    let x := p - 69 * 65536
    let k := (x % 786432).toNat / 4096
    let u := x % 4096
    let m : Int := expEntry k + ((expEntry (k + 1) : Int) - expEntry k) * u / 4096
    ((pitchToFtw fs p ratio).toNat : Int) =
      ⌊(kA4 fs * m * ratio : ℚ) / 2 ^ (55 - x / 786432).toNat + 1 / 2⌋ % 2 ^ 32

/-- R409: before its reduction modulo 2^32 the tuning word is nondecreasing in the pitch and in the ratio. -/
def Obligations.TuningWordIsMonotone : Prop :=
  ∀ (fs : Nat) (p p' : Int) (ratio ratio' : Nat),
    -33 * 65536 ≤ p → p ≤ p' → p' < 159 * 65536 → ratio ≤ ratio' →
    unreducedFtw fs p ratio ≤ unreducedFtw fs p' ratio ∧ unreducedFtw fs p ratio ≤ unreducedFtw fs p ratio'

/-- Tuning words of 95_test_vectors.md L1.1 and L2.2. The row of the least pitch is left out: its value does not follow from
R404 (log entry 12). -/
def Obligations.TuningWordVectors : Prop :=
  pitchToFtw 48000 4521984 256 = 39370534 ∧ pitchToFtw 48000 (-65536) 256 = 690499 ∧
  pitchToFtw 48000 3932160 256 = 23409859 ∧ pitchToFtw 48000 4526080 256 = 39512924 ∧
  pitchToFtw 48000 4521984 4096 = 629928537 ∧ pitchToFtw 48000 2949120 256 = 9842633 ∧
  pitchToFtw 48000 10420223 4096 = 2359995419 ∧ pitchToFtw 44100 4521984 256 = 42852281

/-! ### Commands -/

/-- R520: NOP, and a NOP word with a reserved bit set. -/
def Obligations.NopChangesNothing : Prop :=
  ∀ s : State, exec .nop s = .next s ∧
    ∀ w : Word, w.toNat / 2 ^ 28 = 0 → w ≠ 0 → applyWord w s = .next (latchError .reservedBits w s)

/-- R470, R472: a sounding NOTE_ON, in every state, a retrigger and a steal among them (R475). -/
def Obligations.NoteOnSounds : Prop :=
  ∀ (side : Bool) (note vel : BitVec 7) (s : State), vel ≠ 0 →
    ∃ t, exec (.noteOn side note vel) s = .next t ∧
      t.regs.note.toInt = note.toNat ∧ t.regs.vel = vel ∧ t.regs.side = side ∧
      t.regs.gate = true ∧ t.regs.active = true ∧
      (∀ P, (view P t .voice).toNat =
        note.toNat + vel.toNat * 2 ^ 8 + 2 ^ 16 + 2 ^ 17 + side.toNat * 2 ^ 18) ∧
      (∀ o : Osc, ((t.regs.pweff.get o).toNat : Int) =
        max 656 (min 64880 ((s.regs.pwbAt side o).toNat
          + s.regs.pwkt.toNat * ((s.regs.pwref.toNat : Int) - note.toNat)
          + (s.regs.pwvel.toNat : Int) * (127 - vel.toNat) / 127))) ∧
      (s.regs.nrst = true → (∀ n, t.regs.phase.get n = 0) ∧ ∀ c, t.regs.prev.get c = 0) ∧
      ChangesOnly (noteOnChanges s.regs.nrst) s t

/-- R471: a NOTE_ON with velocity 0 is exactly a NOTE_OFF. -/
def Obligations.NoteOnVelocityZeroIsNoteOff : Prop :=
  ∀ (side : Bool) (note : BitVec 7) (s : State), exec (.noteOn side note 0) s = exec (.noteOff note) s

/-- R473: NOTE_OFF clears GATE for the assigned note only, and nothing else; NOTE = -1 never matches. -/
def Obligations.NoteOffReleasesAssignedNote : Prop :=
  ∀ (note : BitVec 7) (s : State),
    exec (.noteOff note) s =
      .next (s.withRegs { s.regs with gate := s.regs.gate && (s.regs.note.toInt != note.toNat) })

/-- R474: BEND stores the clamped value, whatever the voice does, and changes no phase. -/
def Obligations.BendStoresClampedValue : Prop :=
  ∀ (bval : BitVec 15) (s : State),
    ∃ t, exec (.bend bval) s = .next t ∧ t.regs.bend.toInt = max (-8192) (min 8192 bval.toInt) ∧
      ChangesOnly bendChanges s t

/-- R490, R491, R492, R493: an accepted WREG to a register other than STATUS stores the value of the table, which the read
port returns, and changes no other register but the tuning words derived from it. -/
def Obligations.WregStoresTableValue : Prop :=
  ∀ (index : BitVec 8) (data : BitVec 20) (s : State), index ≠ 0x01 →
    (Instr.wreg index data).wellFormed = true →
    ∃ t reg, exec (.wreg index data) s = .next t ∧ regOf index = some reg ∧
      (∀ P, hostRead P t index = BitVec.ofInt 32 (wregReadBack index.toNat data.toNat)) ∧
      ChangesOnly (wregChanges reg) s t

/-- R490, R491, R494, R496, R602: which WREG is refused with which code, in the order of the checks. -/
def Obligations.WregRefusals : Prop :=
  ∀ (index : BitVec 8) (data : BitVec 20) (s : State),
    let i := index.toNat
    let d := data.toNat
    let w := encode (.wreg index data)
    let readOnly := i = 0x02 ∨ i = 0x03 ∨ i = 0x04 ∨ i = 0x13 ∨ i = 0x14 ∨ (0x1C ≤ i ∧ i ≤ 0x29)
    let unmapped := (0x15 ≤ i ∧ i ≤ 0x17) ∨ (0x2A ≤ i ∧ i ≤ 0x7F)
    (readOnly → exec (.wreg index data) s = .next (latchError .readOnly w s)) ∧
    (unmapped → exec (.wreg index data) s = .next (latchError .badRegister w s)) ∧
    (¬readOnly → ¬unmapped → 2 ^ wregWidth i ≤ d →
      exec (.wreg index data) s = .next (latchError .reservedBits w s)) ∧
    (i = 0x00 → d < 2 ^ 10 → (2 ≤ d / 2 ^ 6 % 4 ∨ 2 ≤ d / 2 ^ 8) →
      exec (.wreg index data) s = .next (latchError .illegalValue w s))

/-- R495: the STATUS write. -/
def Obligations.StatusWriteOneToClear : Prop :=
  ∀ (data : BitVec 20) (s : State),
    (data = 0 → exec (.wreg 0x01 data) s = .next s) ∧
    (data = 1 → exec (.wreg 0x01 data) s =
      .next (s.withRegs { s.regs with err := false, errcode := 0, errcmd := 0 })) ∧
    (2 ≤ data.toNat →
      exec (.wreg 0x01 data) s = .next (latchError .reservedBits (encode (.wreg 0x01 data)) s))

/-- R521: PHRST. -/
def Obligations.PhrstZeroesSelected : Prop :=
  ∀ (pmask : BitVec 2) (smask : BitVec 4) (s : State),
    ∃ t, exec (.phrst pmask smask) s = .next t ∧
      (∀ n : Slot, smask.getLsbD n = true → t.regs.phase.get n = 0) ∧
      (∀ c : Chan, pmask.getLsbD c = true → t.regs.prev.get c = 0) ∧
      ChangesOnly (phrstChanges pmask smask) s t

/-- R701: SRESET sets everything but Q and BLKPOS to its reset value. -/
def Obligations.SresetRestoresResetValues : Prop :=
  ∀ s : State, ∃ t, exec .sreset s = .next t ∧ t.regs = State.reset.regs ∧ KeepsRest s t ∧
    ∀ P reg, reg ≠ .qlevel → reg ≠ .blkpos → view P t reg = view P State.reset reg

/-- R601, R603: the first error since the last clear is kept, with its word and its code, for each cause; then the same of
the words that do not decode and of the WREGs that are not accepted, with the number that STATUS reads as. -/
def Obligations.FirstErrorIsKept : Prop :=
  (∀ (e : CmdError) (w : Word) (s : State),
    let code : BitVec 3 := match e with
      | .illegalOpcode => 1
      | .reservedBits => 2
      | .badRegister => 3
      | .readOnly => 4
      | .illegalValue => 5
    (s.regs.err = true → latchError e w s = s) ∧
    (s.regs.err = false →
      latchError e w s = s.withRegs { s.regs with err := true, errcode := code, errcmd := w })) ∧
  (∀ (w : Word) (e : CmdError) (s : State), decode w = .error e →
    (s.regs.err = true → applyWord w s = .next s) ∧
    (s.regs.err = false → ∃ t, applyWord w s = .next t ∧ t.regs.errcmd = w ∧
      ∀ P, (view P t .status).toNat = 1 + 2 * (if 7 ≤ w.toNat / 2 ^ 28 then 1 else 2))) ∧
  ∀ (index : BitVec 8) (data : BitVec 20) (s : State), (Instr.wreg index data).wellFormed = false →
    let i := index.toNat
    (s.regs.err = true → exec (.wreg index data) s = .next s) ∧
    (s.regs.err = false → ∃ t, exec (.wreg index data) s = .next t ∧ t.regs.errcmd = encode (.wreg index data) ∧
      ∀ P, (view P t .status).toNat = 1 + 2 *
        (if (0x15 ≤ i ∧ i ≤ 0x17) ∨ (0x2A ≤ i ∧ i ≤ 0x7F) then 3
        else if i = 0x02 ∨ i = 0x03 ∨ i = 0x04 ∨ i = 0x13 ∨ i = 0x14 ∨ (0x1C ≤ i ∧ i ≤ 0x29) then 4
        else if 2 ^ wregWidth i ≤ data.toNat then 2
        else 5))

/-- R604: a word that raises changes nothing but the latch, and the words after it are applied as usual. A word raises where
it does not decode, or decodes to a WREG that is not accepted. -/
def Obligations.ErroneousWordOnlyLatches : Prop :=
  ∀ (w : Word) (s : State) (ws : List Word),
    ((∃ e, decode w = .error e) ∨ ∃ i, decode w = .instr i ∧ i.wellFormed = false) →
    ∃ t, applyWord w s = .next t ∧ ChangesOnly errorChanges s t ∧ applyAll (w :: ws) s = applyAll ws t ∧
      (s.regs.err = true → t = s) ∧ (s.regs.err = false → t.regs.err = true ∧ t.regs.errcmd = w)

/-- R308: a command raises an error exactly where it is not well-formed. -/
def Obligations.WellFormedCommandsNeverRaise : Prop :=
  ∀ (i : Instr) (s : State), s.regs.err = false →
    ∃ t, exec i s = .next t ∧ t.regs.err = !i.wellFormed

/-- R206: a word applied twice in a row has the effect of applying it once. -/
def Obligations.ApplyingTwiceIsApplyingOnce : Prop :=
  ∀ (w : Word) (s t : State), applyWord w s = .next t → applyWord w t = .next t

/-- R607, R608: `irq_o` is STATUS bit 0 and CTRL bit 5, and it rises only in a drain. -/
def Obligations.InterruptFollowsErrorLatch : Prop :=
  (∀ P (s : State), irqOut s = ((view P s .status).getLsbD 0 && (view P s .ctrl).getLsbD 5)) ∧
  ∀ s t : State, step s = .next t → irqOut s = false → irqOut t = true →
    EngineMoves s ∧ s.blkpos = 0 ∧ s.q ≠ []

/-- R428: what writes a phase accumulator. -/
def Obligations.PhaseWriters : Prop :=
  (∀ (i : Instr) (s t : State), exec i s = .next t → t.regs.phase ≠ s.regs.phase →
    (∃ pmask smask, i = .phrst pmask smask) ∨ i = .sreset ∨
      (s.regs.nrst = true ∧ ∃ side note vel, i = .noteOn side note vel ∧ vel ≠ 0)) ∧
  ∀ (P : Params) (idle : Bool) (s : State), (sampleStep P idle s).regs.phase ≠ s.regs.phase →
    s.regs.active = true

/-- R713: PWEFF0 and PWEFF1 are computed only by a sounding NOTE_ON; SRESET restores their reset value. -/
def Obligations.PulseWidthWriters : Prop :=
  (∀ (i : Instr) (s t : State), exec i s = .next t → t.regs.pweff ≠ s.regs.pweff →
    i = .sreset ∨ ∃ side note vel, i = .noteOn side note vel ∧ vel ≠ 0) ∧
  ∀ (P : Params) (idle : Bool) (s : State), (sampleStep P idle s).regs.pweff = s.regs.pweff

/-- R107, R474, R496: BEND is written by BEND and SRESET alone, the note, velocity and side by a sounding NOTE_ON and
SRESET alone, and GATE also by NOTE_OFF and a NOTE_ON of velocity 0. -/
def Obligations.VoiceStateWriters : Prop :=
  ∀ (i : Instr) (s t : State), exec i s = .next t →
    (t.regs.bend ≠ s.regs.bend → i = .sreset ∨ ∃ bval, i = .bend bval) ∧
    ((t.regs.note ≠ s.regs.note ∨ t.regs.vel ≠ s.regs.vel ∨ t.regs.side ≠ s.regs.side
        ∨ t.regs.active ≠ s.regs.active) →
      i = .sreset ∨ ∃ side note vel, i = .noteOn side note vel ∧ vel ≠ 0) ∧
    (t.regs.gate ≠ s.regs.gate →
      i = .sreset ∨ (∃ side note vel, i = .noteOn side note vel) ∨ ∃ note, i = .noteOff note)

/-- R452, R717: CTRL, and so the mode, changes only at a block boundary, by a queued WREG to CTRL or SRESET. -/
def Obligations.ModeSwitchesOnlyAtBoundary : Prop :=
  ∀ s t : State, step s = .next t → t.regs.ctrl ≠ s.regs.ctrl →
    EngineMoves s ∧ s.blkpos = 0 ∧ ∃ w ∈ s.q, decode w = .instr .sreset ∨ ∃ data, decode w = .instr (.wreg 0x00 data)

/-- R712: NOTE_ON and NOTE_OFF for one note in the same drain never gate, and ACTIVE clears after one sample if the envelope
reports idle. -/
def Obligations.NoteOnAndOffInOneDrain : Prop :=
  ∀ (P : Params) (idle side : Bool) (note vel : BitVec 7) (s : State), vel ≠ 0 → s.blkpos = 0 →
    s.q = [encode (.noteOn side note vel), encode (.noteOff note)] →
    ∃ t, engineStep P idle s = .next t ∧ t.frame.gate = false ∧ t.frame.active = true ∧
      t.regs.gate = false ∧ t.regs.active = !idle

/-! ### Ports -/

/-- R203, R621: a push with room in the queue appends the word and changes nothing else; on a full queue the HOST waits with
its push while the ENGINE moves. That the ENGINE is the one that moves is the model's choice (log entry 5). -/
def Obligations.HostPushAppends : Prop :=
  ∀ (s : State) (w : Word) (rest : List HostAction), s.script = .push w :: rest →
    (s.q.length < 64 → step s = .next { s with q := s.q ++ [w], script := rest }) ∧
    (64 ≤ s.q.length → step s = engineMove s ∧ ∃ t, step s = .next t ∧ t.script = .push w :: rest)

/-- R205: a read returns the register's value and changes nothing; an unmapped index reads as 0; signed registers are
sign-extended. The value appears in the model's port field (log entry 7). -/
def Obligations.HostReadHasNoSideEffect : Prop :=
  (∀ (s : State) (i : BitVec 8) (rest : List HostAction), s.script = .read i :: rest →
    step s = .next { s with script := rest, rdData := hostRead Config.params s i }) ∧
  (∀ P (s : State) (i : BitVec 8),
    (0x15 ≤ i.toNat ∧ i.toNat ≤ 0x17) ∨ (0x2A ≤ i.toNat ∧ i.toNat ≤ 0x7F) → hostRead P s i = 0) ∧
  (∀ P (s : State), (hostRead P s 0x04).toInt = s.regs.bend.toInt ∧
    (hostRead P s 0x08).toInt = s.regs.fb.toInt ∧
    (hostRead P s 0x18).toInt = (s.regs.detune.get 0).toInt ∧
    (hostRead P s 0x19).toInt = (s.regs.detune.get 1).toInt ∧
    (hostRead P s 0x1A).toInt = (s.regs.detune.get 2).toInt ∧
    (hostRead P s 0x1B).toInt = (s.regs.detune.get 3).toInt ∧
    (hostRead P s 0x24).toInt = (s.regs.prev.get 0).toInt ∧
    (hostRead P s 0x25).toInt = (s.regs.prev.get 1).toInt)

/-- R209 (b): a read between a push and the next drain returns the value from before the push; QLEVEL alone counts the
word. -/
def Obligations.ReadsDoNotForwardFromQueue : Prop :=
  ∀ (P : Params) (s : State) (w : Word) (i : BitVec 8),
    (i ≠ 0x27 → hostRead P (hostPush w s) i = hostRead P s i) ∧
      hostRead P (hostPush w s) 0x27 = hostRead P s 0x27 + 1

/-- R210, R311: SYNC ends only when the queue is empty; until then the HOST keeps reading. -/
def Obligations.SyncWaitsForDrain : Prop :=
  ∀ (s : State) (rest : List HostAction), s.script = .sync :: rest → s.q.length ≤ 64 →
    (s.q = [] → step s = .next { s with script := rest, rdData := 0 }) ∧
    (s.q ≠ [] → ∃ t, step s = .next t ∧ t.script = .sync :: rest)

/-- R700: what every register reads as after reset, the outputs, and the first step. -/
def Obligations.ResetReads : Prop :=
  (∀ P, let rd := fun i => hostRead P State.reset i
    rd 0x00 = 0x146 ∧ rd 0x01 = 0 ∧ rd 0x02 = 0 ∧ rd 0x03 = 0x000000FF ∧ rd 0x04 = 0 ∧ rd 0x05 = 7 ∧
    rd 0x06 = 256 ∧ rd 0x07 = 0 ∧ rd 0x08 = 0 ∧ rd 0x09 = 0 ∧ rd 0x0A = 32768 ∧ rd 0x0B = 32768 ∧
    rd 0x0C = 32768 ∧ rd 0x0D = 32768 ∧ rd 0x0E = 32768 ∧ rd 0x0F = 32768 ∧ rd 0x10 = 0 ∧ rd 0x11 = 60 ∧
    rd 0x12 = 0 ∧ rd 0x13 = 32768 ∧ rd 0x14 = 32768 ∧
    rd 0x18 = 0 ∧ rd 0x19 = 0 ∧ rd 0x1A = 0 ∧ rd 0x1B = 0 ∧ rd 0x1C = 0 ∧ rd 0x1D = 0 ∧ rd 0x1E = 0 ∧
    rd 0x1F = 0 ∧ rd 0x24 = 0 ∧ rd 0x25 = 0 ∧ rd 0x26 = 0 ∧ rd 0x27 = 0 ∧ rd 0x28 = 0 ∧
    rd 0x29 = 0x0DD50001 ∧
    (∀ n : Fin 128, rd (0x80 + BitVec.ofNat 8 n) = 32768) ∧
    (∀ i : BitVec 8, (0x15 ≤ i.toNat ∧ i.toNat ≤ 0x17) ∨ (0x2A ≤ i.toNat ∧ i.toNat ≤ 0x7F) → rd i = 0) ∧
    (∀ n : Fin 4, rd (0x20 + BitVec.ofNat 8 n) = pitchToFtw P.sampleRate (-65536) 256)) ∧
  pitchToFtw 48000 (-65536) 256 = 690499 ∧
  irqOut State.reset = false ∧ cmdReady State.reset = true ∧
  ∀ P idle, ∃ t, engineStep P idle State.reset = .next t ∧ t.frame = ⟨0, 0, false, false, 0⟩

/-- R310, R311: the word of every line but `.word` performs a command or is a WREG, `.word` emits every word as given, and
the words of the pseudo-instructions. -/
def Obligations.AssemblerWordsDecode : Prop :=
  (∀ (line : AsmLine) (w : Word), assemble line = some w → (∀ v, line ≠ .dotWord v) →
    ∃ i, decode w = .instr i) ∧
  (∀ w : Word, assemble (.dotWord w.toNat) = some w) ∧
  assemble .clrerr = some 0x40100001 ∧ assemble .phrstall = some 0x5000003F ∧
  (∀ n v : Nat, n < 128 → v < 2 ^ 20 →
    assemble (.setnds n v) = some (BitVec.ofNat 32 (0x48000000 + n * 2 ^ 20 + v))) ∧
  ∀ n : Nat, n < 128 → assemble (.noteOnOff n) = some (BitVec.ofNat 32 (0x10000000 + n * 2 ^ 7))
end

