-- ==== Sys2Proof/Laws/State.lean ====
section
/-! SUPPORT. The small lemmas of the state's updates: what each named operation of Ops.lean leaves in each field, so that
later proofs need not unfold a record update. -/

namespace Sys2Proof.Machine

/-! ### Pairs and quadruples -/

@[simp] theorem Two.get_zero {α : Type} (t : Two α) : t.get 0 = t.at0 := rfl
@[simp] theorem Two.get_one {α : Type} (t : Two α) : t.get 1 = t.at1 := rfl
@[simp] theorem Four.get_zero {α : Type} (t : Four α) : t.get 0 = t.at0 := rfl
@[simp] theorem Four.get_one {α : Type} (t : Four α) : t.get 1 = t.at1 := rfl
@[simp] theorem Four.get_two {α : Type} (t : Four α) : t.get 2 = t.at2 := rfl
@[simp] theorem Four.get_three {α : Type} (t : Four α) : t.get 3 = t.at3 := rfl

theorem Two.get_set {α : Type} (t : Two α) (i j : Fin 2) (v : α) :
    (t.set i v).get j = if i = j then v else t.get j := by
  fin_cases i <;> fin_cases j <;> rfl

theorem Four.get_set {α : Type} (t : Four α) (i j : Fin 4) (v : α) :
    (t.set i v).get j = if i = j then v else t.get j := by
  fin_cases i <;> fin_cases j <;> rfl

@[simp] theorem Two.get_set_self {α : Type} (t : Two α) (i : Fin 2) (v : α) : (t.set i v).get i = v := by
  simp [Two.get_set]

@[simp] theorem Four.get_set_self {α : Type} (t : Four α) (i : Fin 4) (v : α) : (t.set i v).get i = v := by
  simp [Four.get_set]

theorem Two.ext_get {α : Type} {t u : Two α} (h : ∀ i, t.get i = u.get i) : t = u := by
  have h0 : t.at0 = u.at0 := h 0
  have h1 : t.at1 = u.at1 := h 1
  cases t; cases u
  simp_all

theorem Four.ext_get {α : Type} {t u : Four α} (h : ∀ i, t.get i = u.get i) : t = u := by
  have h0 : t.at0 = u.at0 := h 0
  have h1 : t.at1 = u.at1 := h 1
  have h2 : t.at2 = u.at2 := h 2
  have h3 : t.at3 = u.at3 := h 3
  cases t; cases u
  simp_all

/-! ### Changing the registers -/

@[simp] theorem State.withRegs_regs (s : State) (r : Regs) : (s.withRegs r).regs = r := rfl
@[simp] theorem State.withRegs_q (s : State) (r : Regs) : (s.withRegs r).q = s.q := rfl
@[simp] theorem State.withRegs_blkpos (s : State) (r : Regs) : (s.withRegs r).blkpos = s.blkpos := rfl
@[simp] theorem State.withRegs_frame (s : State) (r : Regs) : (s.withRegs r).frame = s.frame := rfl
@[simp] theorem State.withRegs_rdData (s : State) (r : Regs) : (s.withRegs r).rdData = s.rdData := rfl
@[simp] theorem State.withRegs_script (s : State) (r : Regs) : (s.withRegs r).script = s.script := rfl
@[simp] theorem State.withRegs_draws (s : State) (r : Regs) : (s.withRegs r).draws = s.draws := rfl
@[simp] theorem State.withRegs_withRegs (s : State) (r r' : Regs) :
    (s.withRegs r).withRegs r' = s.withRegs r' := rfl
@[simp] theorem State.withRegs_self (s : State) : s.withRegs s.regs = s := rfl

/-! ### Restarting phases and feedback values -/

theorem Regs.restart_phase_get (r : Regs) (smask : BitVec 4) (pmask : BitVec 2) (s : Slot) :
    (r.restart smask pmask).phase.get s = if smask.getLsbD s then 0 else r.phase.get s := by
  fin_cases s <;> rfl

theorem Regs.restart_prev_get (r : Regs) (smask : BitVec 4) (pmask : BitVec 2) (c : Chan) :
    (r.restart smask pmask).prev.get c = if pmask.getLsbD c then 0 else r.prev.get c := by
  fin_cases c <;> rfl

@[simp] theorem Regs.restart_ctrl (r : Regs) (m : BitVec 4) (p : BitVec 2) : (r.restart m p).ctrl = r.ctrl := rfl
@[simp] theorem Regs.restart_err (r : Regs) (m : BitVec 4) (p : BitVec 2) : (r.restart m p).err = r.err := rfl
@[simp] theorem Regs.restart_errcode (r : Regs) (m : BitVec 4) (p : BitVec 2) :
    (r.restart m p).errcode = r.errcode := rfl
@[simp] theorem Regs.restart_errcmd (r : Regs) (m : BitVec 4) (p : BitVec 2) :
    (r.restart m p).errcmd = r.errcmd := rfl
@[simp] theorem Regs.restart_note (r : Regs) (m : BitVec 4) (p : BitVec 2) : (r.restart m p).note = r.note := rfl
@[simp] theorem Regs.restart_vel (r : Regs) (m : BitVec 4) (p : BitVec 2) : (r.restart m p).vel = r.vel := rfl
@[simp] theorem Regs.restart_gate (r : Regs) (m : BitVec 4) (p : BitVec 2) : (r.restart m p).gate = r.gate := rfl
@[simp] theorem Regs.restart_active (r : Regs) (m : BitVec 4) (p : BitVec 2) :
    (r.restart m p).active = r.active := rfl
@[simp] theorem Regs.restart_side (r : Regs) (m : BitVec 4) (p : BitVec 2) : (r.restart m p).side = r.side := rfl
@[simp] theorem Regs.restart_bend (r : Regs) (m : BitVec 4) (p : BitVec 2) : (r.restart m p).bend = r.bend := rfl
@[simp] theorem Regs.restart_pweff (r : Regs) (m : BitVec 4) (p : BitVec 2) :
    (r.restart m p).pweff = r.pweff := rfl
@[simp] theorem Regs.restart_nds (r : Regs) (m : BitVec 4) (p : BitVec 2) : (r.restart m p).nds = r.nds := rfl

/-! ### Advancing a phase -/

theorem Regs.advance_phase_get (r : Regs) (ftw : Four Word) (s j : Slot) :
    (r.advance ftw s).phase.get j = if s = j then r.phase.get s + ftw.get s else r.phase.get j := by
  simp [Regs.advance, Four.get_set]

@[simp] theorem Regs.advance_ctrl (r : Regs) (f : Four Word) (s : Slot) : (r.advance f s).ctrl = r.ctrl := rfl
@[simp] theorem Regs.advance_prev (r : Regs) (f : Four Word) (s : Slot) : (r.advance f s).prev = r.prev := rfl
@[simp] theorem Regs.advance_gate (r : Regs) (f : Four Word) (s : Slot) : (r.advance f s).gate = r.gate := rfl
@[simp] theorem Regs.advance_active (r : Regs) (f : Four Word) (s : Slot) :
    (r.advance f s).active = r.active := rfl

/-! ### Pushing a word -/

@[simp] theorem hostPush_regs (w : Word) (s : State) : (hostPush w s).regs = s.regs := rfl
@[simp] theorem hostPush_q (w : Word) (s : State) : (hostPush w s).q = s.q ++ [w] := rfl
@[simp] theorem hostPush_blkpos (w : Word) (s : State) : (hostPush w s).blkpos = s.blkpos := rfl
@[simp] theorem hostPush_frame (w : Word) (s : State) : (hostPush w s).frame = s.frame := rfl
@[simp] theorem hostPush_script (w : Word) (s : State) : (hostPush w s).script = s.script := rfl

/-! ### NDS -/

theorem Regs.ndsAt_write (r : Regs) (n m : Fin 128) (v : Int) :
    (r.write (.nds n) v).ndsAt m = if n = m then BitVec.ofInt 16 v else r.ndsAt m := by
  simp [Regs.write, Regs.ndsAt, Vector.get_eq_getElem, Vector.getElem_set, Fin.ext_iff]

end Sys2Proof.Machine
end

