-- ==== Sys2Proof/Laws/Ops.lean ====
section
/-! SUPPORT. What each shared operation can do, once: arithmetic primitives, the register table, raising an error, and the
composition of outcomes. Provers cite these rather than unfold the operations. -/

namespace Sys2Proof.Machine

/-! ### Arithmetic -/

theorem clamp_bounds {v lo hi : Int} (h : lo ≤ hi) : lo ≤ clamp v lo hi ∧ clamp v lo hi ≤ hi := by
  unfold clamp; split <;> [omega; (split <;> omega)]

theorem clamp_of_within {v lo hi : Int} (h₁ : lo ≤ v) (h₂ : v ≤ hi) : clamp v lo hi = v := by
  unfold clamp; split <;> [omega; (split <;> omega)]

theorem asr_le_iff {v k : Int} {n : Nat} : k ≤ asr v n ↔ k * 2 ^ n ≤ v :=
  Int.le_ediv_iff_mul_le (by positivity)

theorem asr_lt_iff {v k : Int} {n : Nat} : asr v n < k ↔ v < k * 2 ^ n :=
  Int.ediv_lt_iff_lt_mul (by positivity)

/-- An integer within the two's-complement range of a width survives its storage in that width. -/
theorem toInt_ofInt_of_range {w : Nat} {v : Int} (h₁ : -(2 ^ w) ≤ 2 * v) (h₂ : 2 * v < 2 ^ w) :
    (BitVec.ofInt w v).toInt = v := by
  rw [BitVec.toInt_ofInt]
  apply Int.bmod_eq_of_le_mul_two <;> push_cast <;> omega

/-- An integer within the unsigned range of a width survives its storage in that width. -/
theorem toNat_ofInt_of_range {w : Nat} {v : Int} (h₁ : 0 ≤ v) (h₂ : v < 2 ^ w) :
    ((BitVec.ofInt w v).toNat : Int) = v := by
  rw [BitVec.toNat_ofInt]
  push_cast
  rw [Int.emod_eq_of_lt h₁ h₂]
  exact Int.toNat_of_nonneg h₁

/-! ### Outcomes -/

@[simp] theorem andThen_next (s : State) (f : State → Host.Outcome State Fault Refusal) :
    andThen (.next s) f = f s := rfl

theorem andThen_eq_next {o : Host.Outcome State Fault Refusal}
    {f : State → Host.Outcome State Fault Refusal} {t : State} (h : andThen o f = .next t) :
    ∃ s, o = .next s ∧ f s = .next t := by
  cases o with
  | next s => exact ⟨s, rfl, h⟩
  | fault e => simp [andThen] at h
  | refused e => simp [andThen] at h

theorem applyAll_append (ws vs : List Word) (s : State) :
    applyAll (ws ++ vs) s = andThen (applyAll ws s) (applyAll vs) := by
  induction ws generalizing s with
  | nil => rfl
  | cons w ws ih =>
    simp only [List.cons_append, applyAll]
    cases applyWord w s with
    | next t => exact ih t
    | fault e => rfl
    | refused e => rfl

/-! ### Raising and clearing an error -/

/-- All that `latchError` can do: nothing while an error is latched, else set the three fields (R603). -/
theorem latchError_cases (e : CmdError) (w : Word) (s : State) :
    (s.regs.err = true ∧ latchError e w s = s) ∨
    (s.regs.err = false ∧
      latchError e w s = s.withRegs { s.regs with err := true, errcode := errorCode e, errcmd := w }) := by
  unfold latchError
  cases h : s.regs.err <;> simp

theorem latchError_idem (e : CmdError) (w : Word) (s : State) :
    latchError e w (latchError e w s) = latchError e w s := by
  obtain ⟨h, heq⟩ | ⟨h, heq⟩ := latchError_cases e w s
  · rw [heq, heq]
  · rw [heq]; simp [latchError]

theorem latchError_of_clear {e : CmdError} {w : Word} {s : State} (h : s.regs.err = false) :
    latchError e w s = s.withRegs { s.regs with err := true, errcode := errorCode e, errcmd := w } := by
  simp [latchError, h]

theorem latchError_of_latched {e : CmdError} {w : Word} {s : State} (h : s.regs.err = true) :
    latchError e w s = s := by
  simp [latchError, h]

theorem errorCode_range (e : CmdError) : 1 ≤ (errorCode e).toNat ∧ (errorCode e).toNat ≤ 5 := by
  cases e <;> decide

/-! ### The register table -/

/-- The index map and its inverse agree. -/
theorem regOf_indexOf (reg : Reg) : regOf (indexOf reg) = some reg := by
  cases reg with
  | pwb side o => cases side <;> fin_cases o <;> rfl
  | asym c => fin_cases c <;> rfl
  | pweff o => fin_cases o <;> rfl
  | detune s => fin_cases s <;> rfl
  | phase s => fin_cases s <;> rfl
  | ftw s => fin_cases s <;> rfl
  | prev c => fin_cases c <;> rfl
  | nds n => revert n; decide
  | _ => rfl

/-- The stored value of a clamped register lies within its bounds (R493). -/
theorem stored_bounds {row : WriteRow} {lo hi : Int} (h : row.bounds = some (lo, hi)) (hle : lo ≤ hi)
    (data : BitVec 20) : lo ≤ row.stored data ∧ row.stored data ≤ hi := by
  simp only [WriteRow.stored, h]
  exact clamp_bounds hle

/-- The value an accepted DATA stands for lies within the register's width (R491, R492). -/
theorem value_range_of_fits {row : WriteRow} {data : BitVec 20} (hs : row.signed = false)
    (hf : row.fits data = true) : 0 ≤ row.value data ∧ row.value data < 2 ^ row.width := by
  simp only [WriteRow.fits, decide_eq_true_eq] at hf
  simp only [WriteRow.value, hs]
  exact ⟨by simp, by simpa using (by exact_mod_cast hf : (data.toNat : Int) < 2 ^ row.width)⟩

/-! ### Tables -/

theorem tableT_length : tableT.length = 257 := by decide +kernel

theorem tableE_length : tableE.length = 193 := by decide +kernel

theorem tableT_le : ∀ v ∈ tableT, v ≤ 32767 := by decide +kernel

theorem tableT_chain : tableT.IsChain (· ≤ ·) := by decide +kernel

theorem tableE_chain : tableE.IsChain (· ≤ ·) := by decide +kernel

/-- Neighbours of a rising list, looked up by position. -/
theorem getD_mono_of_chain {l : List Nat} (h : l.IsChain (· ≤ ·)) {k : Nat} (hk : k + 1 < l.length) :
    l.getD k 0 ≤ l.getD (k + 1) 0 := by
  rw [List.getD_eq_getElem _ _ (by omega), List.getD_eq_getElem _ _ hk]
  exact List.isChain_iff_getElem.mp h k hk

theorem sineEntry_le (k : Nat) : sineEntry k ≤ 32767 := by
  by_cases h : k < tableT.length
  · rw [sineEntry, List.getD_eq_getElem _ _ h]
    exact tableT_le _ (List.getElem_mem h)
  · rw [sineEntry, List.getD_eq_default _ _ (by omega)]
    omega

theorem sineEntry_mono {k : Nat} (h : k < 256) : sineEntry k ≤ sineEntry (k + 1) :=
  getD_mono_of_chain tableT_chain (by rw [tableT_length]; omega)

theorem expEntry_mono {k : Nat} (h : k < 192) : expEntry k ≤ expEntry (k + 1) :=
  getD_mono_of_chain tableE_chain (by rw [tableE_length]; omega)

theorem pulse_cases (phi : Word) (pw : Nat) : pulse phi pw = 32767 ∨ pulse phi pw = -32767 := by
  unfold pulse; split <;> simp

end Sys2Proof.Machine
end

