-- ==== Sys2Proof/Laws/Encoding.lean ====
section
/-! SUPPORT. The command words as numbers: each field at its place (R301 to R305). -/

namespace Sys2Proof

theorem toNat_append_eq {m n : Nat} (a : BitVec m) (b : BitVec n) :
    (a ++ b).toNat = a.toNat * 2 ^ n + b.toNat := by
  rw [BitVec.toNat_append, ← Nat.shiftLeft_add_eq_or_of_lt b.isLt, Nat.shiftLeft_eq]

theorem encode_nop_toNat : (encode .nop).toNat = 0 := rfl

theorem encode_noteOn_toNat (side : Bool) (note vel : BitVec 7) :
    (encode (.noteOn side note vel)).toNat =
      0x10000000 + side.toNat * 2 ^ 14 + note.toNat * 2 ^ 7 + vel.toNat := by
  have h : (BitVec.ofBool side).toNat = side.toNat := by cases side <;> rfl
  simp only [encode, toNat_append_eq, h]
  simp; omega

theorem encode_noteOff_toNat (note : BitVec 7) :
    (encode (.noteOff note)).toNat = 0x20000000 + note.toNat * 2 ^ 7 := by
  simp only [encode, toNat_append_eq]
  simp; omega

theorem encode_bend_toNat (bval : BitVec 15) : (encode (.bend bval)).toNat = 0x30000000 + bval.toNat := by
  simp only [encode, toNat_append_eq]
  simp

theorem encode_wreg_toNat (index : BitVec 8) (data : BitVec 20) :
    (encode (.wreg index data)).toNat = 0x40000000 + index.toNat * 2 ^ 20 + data.toNat := by
  simp only [encode, toNat_append_eq]
  simp; omega

theorem encode_phrst_toNat (pmask : BitVec 2) (smask : BitVec 4) :
    (encode (.phrst pmask smask)).toNat = 0x50000000 + pmask.toNat * 2 ^ 4 + smask.toNat := by
  simp only [encode, toNat_append_eq]
  simp; omega

theorem encode_sreset_toNat : (encode .sreset).toNat = 0x60000000 := rfl

/-- The opcode of a word as a number. -/
theorem opcodeOf_eq (w : Word) : opcodeOf w = w.toNat / 2 ^ 28 := by
  have := w.isLt
  simp only [opcodeOf, BitVec.extractLsb'_toNat, Nat.shiftRight_eq_div_pow]
  omega

end Sys2Proof
end

