-- ==== Sys2Proof/Laws/Exec.lean ====
section
/-! SUPPORT. What a command, a word, a drain and a sample step can do, said once: each answers a next state, and a command
writes registers and nothing else. Invariants and frames are derived from these. -/

namespace Sys2Proof.Machine

/-- Raising an error writes registers only. -/
theorem latchError_next (e : CmdError) (w : Word) (s : State) : ∃ r, latchError e w s = s.withRegs r := by
  obtain ⟨_, h⟩ | ⟨_, h⟩ := latchError_cases e w s
  · exact ⟨s.regs, h⟩
  · exact ⟨_, h⟩

/-- All that a note-off can do (R473). -/
theorem noteOffAction_eq (note : BitVec 7) (s : State) :
    noteOffAction note s =
      s.withRegs { s.regs with gate := s.regs.gate && !decide (s.regs.note = note.setWidth 8) } := by
  unfold noteOffAction
  split <;> rename_i h
  · simp [h]
  · simp only [h, decide_false, Bool.not_false, Bool.and_true]; rfl

/-- All that a STATUS write can do (R495). -/
theorem statusWrite_cases (w : Word) (data : BitVec 20) (s : State) :
    (data &&& 0xFFFFE ≠ 0 ∧ statusWrite w data s = latchError .reservedBits w s) ∨
    (data &&& 0xFFFFE = 0 ∧ data.getLsbD 0 = true ∧ statusWrite w data s = clearError s) ∨
    (data &&& 0xFFFFE = 0 ∧ data.getLsbD 0 = false ∧ statusWrite w data s = s) := by
  unfold statusWrite
  split
  · exact .inl ⟨‹_›, rfl⟩
  · rename_i h
    have h := not_not.mp h
    split
    · exact .inr (.inl ⟨h, ‹_›, rfl⟩)
    · exact .inr (.inr ⟨h, Bool.eq_false_of_not_eq_true ‹_›, rfl⟩)

/-- All that the write of a read-write register can do (R490). -/
theorem writeChecked_cases (w : Word) (reg : Reg) (row : WriteRow) (data : BitVec 20) (s : State) :
    (row.fits data = false ∧ writeChecked w reg row data s = latchError .reservedBits w s) ∨
    (row.fits data = true ∧ reg = .ctrl ∧ illegalCtrl (data.setWidth 10) = true ∧
      writeChecked w reg row data s = latchError .illegalValue w s) ∨
    (row.fits data = true ∧ (reg = .ctrl → illegalCtrl (data.setWidth 10) = false) ∧
      writeChecked w reg row data s = s.withRegs (s.regs.write reg (row.stored data))) := by
  cases hf : row.fits data with
  | false => simp [writeChecked, hf]
  | true =>
    by_cases hc : reg = .ctrl
    · cases hi : illegalCtrl (data.setWidth 10) <;> simp [writeChecked, hf, hc, hi]
    · simp [writeChecked, hf, hc]

/-- All that a WREG can do (R490): it raises an error, clears the latch, does nothing (STATUS with DATA 0), or stores the
value of the register's row. -/
theorem writeRegister_cases (index : BitVec 8) (data : BitVec 20) (s : State) :
    (∃ e, writeRegister index data s = latchError e (wregWord index data) s) ∨
    (regOf index = some .status ∧ writeRegister index data s = clearError s) ∨
    (regOf index = some .status ∧ writeRegister index data s = s) ∨
    (∃ reg row, regOf index = some reg ∧ writeRow reg = some row ∧ row.fits data = true ∧
      (reg = .ctrl → illegalCtrl (data.setWidth 10) = false) ∧
      writeRegister index data s = s.withRegs (s.regs.write reg (row.stored data))) := by
  unfold writeRegister
  split
  · exact .inl ⟨_, rfl⟩
  · obtain ⟨_, h⟩ | ⟨_, _, h⟩ | ⟨_, _, h⟩ := statusWrite_cases (wregWord index data) data s
    · exact .inl ⟨_, h⟩
    · exact .inr (.inl ⟨‹_›, h⟩)
    · exact .inr (.inr (.inl ⟨‹_›, h⟩))
  · rename_i reg _ hreg
    split
    · exact .inl ⟨_, rfl⟩
    · rename_i row hrow
      obtain ⟨_, h⟩ | ⟨_, _, _, h⟩ | ⟨hf, hc, h⟩ := writeChecked_cases (wregWord index data) reg row data s
      · exact .inl ⟨_, h⟩
      · exact .inl ⟨_, h⟩
      · exact .inr (.inr (.inr ⟨reg, row, hreg, hrow, hf, hc, h⟩))

/-- Every command answers a next state that differs in registers only. -/
theorem exec_next (i : Instr) (s : State) : ∃ r, exec i s = .next (s.withRegs r) := by
  cases i with
  | nop => exact ⟨s.regs, rfl⟩
  | noteOn side note vel =>
    simp only [exec, execNoteOn, noteOffAction_eq, soundNote]
    split <;> exact ⟨_, rfl⟩
  | noteOff note => 
    simp only [exec, execNoteOff, noteOffAction_eq]
    exact ⟨_, rfl⟩
  | bend bval => exact ⟨_, rfl⟩
  | wreg index data =>
    simp only [exec, execWreg]
    obtain ⟨e, h⟩ | ⟨_, h⟩ | ⟨_, h⟩ | ⟨_, _, _, _, _, _, h⟩ := writeRegister_cases index data s
    · obtain ⟨r, hr⟩ := latchError_next e (wregWord index data) s
      exact ⟨r, by rw [h, hr]⟩
    · exact ⟨_, by rw [h]; rfl⟩
    · exact ⟨s.regs, by rw [h]; rfl⟩
    · exact ⟨_, by rw [h]⟩
  | phrst pmask smask => exact ⟨_, rfl⟩
  | sreset => exact ⟨_, rfl⟩

/-- Applying a word answers a next state that differs in registers only. -/
theorem applyWord_next (w : Word) (s : State) : ∃ r, applyWord w s = .next (s.withRegs r) := by
  unfold applyWord
  split
  · exact exec_next _ _
  · obtain ⟨r, h⟩ := latchError_next ‹_› w s
    exact ⟨r, by rw [h]⟩

/-- Applying words answers a next state that differs in registers only. -/
theorem applyAll_next (ws : List Word) (s : State) : ∃ r, applyAll ws s = .next (s.withRegs r) := by
  induction ws generalizing s with
  | nil => exact ⟨s.regs, rfl⟩
  | cons w ws ih =>
    obtain ⟨r, h⟩ := applyWord_next w s
    obtain ⟨r', h'⟩ := ih (s.withRegs r)
    exact ⟨r', by simp [applyAll, h, h']⟩

/-- A property of states that every applied word keeps is kept by applying words in a row. -/
theorem applyAll_induction {p : State → Prop} (hp : ∀ w s t, p s → applyWord w s = .next t → p t)
    {ws : List Word} {s t : State} (hs : p s) (h : applyAll ws s = .next t) : p t := by
  induction ws generalizing s with
  | nil => cases h; exact hs
  | cons w ws ih =>
    obtain ⟨u, hu, ht⟩ := andThen_eq_next h
    exact ih (hp w s u hs hu) ht

/-- The drain answers a state with an empty queue that otherwise differs in registers only. -/
theorem drain_next (s : State) : ∃ r, drain s = .next { s.withRegs r with q := [] } := by
  obtain ⟨r, h⟩ := applyAll_next s.q s
  exact ⟨r, by simp [drain, h]⟩

/-- What a sample step starts from: the drained state at a block boundary, the state itself elsewhere. -/
theorem atBoundary_cases (s : State) :
    (s.blkpos = 0 ∧ ∃ r, atBoundary s = .next { s.withRegs r with q := [] }) ∨
    (s.blkpos ≠ 0 ∧ atBoundary s = .next s) := by
  unfold atBoundary
  split
  · exact .inl ⟨‹_›, drain_next s⟩
  · exact .inr ⟨‹_›, rfl⟩

/-- A sample step always answers a next state: the sample computed from the state that `atBoundary` gives. -/
theorem engineStep_next (P : Params) (idle : Bool) (s : State) :
    ∃ u, atBoundary s = .next u ∧ engineStep P idle s = .next (sampleStep P idle u) := by
  obtain ⟨_, r, h⟩ | ⟨_, h⟩ := atBoundary_cases s <;> exact ⟨_, h, by simp [engineStep, h]⟩

/-! ### The sample step, field by field -/

@[simp] theorem sampleStep_q (P : Params) (idle : Bool) (s : State) : (sampleStep P idle s).q = s.q := rfl
@[simp] theorem sampleStep_script (P : Params) (idle : Bool) (s : State) :
    (sampleStep P idle s).script = s.script := rfl
@[simp] theorem sampleStep_rdData (P : Params) (idle : Bool) (s : State) :
    (sampleStep P idle s).rdData = s.rdData := rfl
@[simp] theorem sampleStep_draws (P : Params) (idle : Bool) (s : State) :
    (sampleStep P idle s).draws = s.draws := rfl
@[simp] theorem sampleStep_blkpos (P : Params) (idle : Bool) (s : State) :
    (sampleStep P idle s).blkpos = (s.blkpos + 1) % P.block := rfl

/-- One channel writes phases only. -/
theorem fmPhases_eq (k : FmFactors) (ftw : Four Word) (r : Regs) (c : Chan) :
    ∃ phase, fmPhases k ftw r c = { r with phase := phase } := ⟨_, rfl⟩

theorem fmChannels_eq (k : FmFactors) (ftw : Four Word) (r : Regs) (first second : Chan) :
    ∃ phase, fmChannels k ftw r first second = { r with phase := phase } := by
  obtain ⟨phase, h⟩ := fmPhases_eq k ftw r first
  obtain ⟨phase', h'⟩ := fmPhases_eq k ftw (fmPhases k ftw r first) second
  exact ⟨phase', by rw [fmChannels, h', h]⟩

/-- The registers that a sample computation may write: the phases and the feedback values. -/
theorem computeSample_regs (P : Params) (r : Regs) :
    ∃ phase prev, (computeSample P r).regs = { r with phase := phase, prev := prev } := by
  unfold computeSample
  split
  · exact ⟨r.phase, r.prev, rfl⟩
  · split
    · obtain ⟨phase, h⟩ := fmChannels_eq (fmFactors r) (ftwAll P r) r 0 1
      exact ⟨phase, _, by simp only [fmStep, h]; rfl⟩
    · exact ⟨_, r.prev, rfl⟩

/-- The end of the release writes ACTIVE alone. -/
theorem endRelease_eq (wasActive idle : Bool) (r : Regs) :
    endRelease wasActive idle r = { r with active := r.active && !(wasActive && !r.gate && idle) } := by
  unfold endRelease
  split <;> rename_i h
  · simp [h]
  · simp only [Bool.not_eq_true] at h; simp [h]

/-- All that a sample step writes in the registers: phases, feedback values and ACTIVE. -/
theorem sampleStep_regs (P : Params) (idle : Bool) (s : State) :
    ∃ phase prev, (sampleStep P idle s).regs =
      { s.regs with phase := phase, prev := prev, active := s.regs.active && (s.regs.gate || !idle) } := by
  obtain ⟨phase, prev, h⟩ := computeSample_regs P s.regs
  refine ⟨phase, prev, ?_⟩
  simp only [sampleStep, h, endRelease_eq]
  cases s.regs.active <;> cases s.regs.gate <;> cases idle <;> rfl

/-- What a sample leaves as it was, whatever the mode (R440). -/
theorem sampleStep_frame (P : Params) (idle : Bool) (u : State) : SampleFrame u (sampleStep P idle u) := by
  obtain ⟨phase, prev, hr⟩ := sampleStep_regs P idle u
  refine ⟨fun P' reg hreg => ?_, by rw [hr], by rw [hr], by rw [hr], by rw [hr], rfl, rfl, rfl, rfl⟩
  cases reg <;>
    simp_all [sampleChanges, view, statusWord, Regs.ndsAt, Regs.pwbAt, ftwOf, pitchOf, bendQ, ratioOf, Regs.fmMode,
      velampOf]

/-! ### One action -/

/-- All that one action can be: a sample step of the ENGINE, a push with room, a read, or the last read of a SYNC. -/
theorem step_cases (s : State) :
    EngineMoves s ∨
    (∃ w rest, s.script = .push w :: rest ∧ cmdReady s = true ∧
      step s = .next (hostPush w { s with script := rest })) ∨
    (∃ i rest, s.script = .read i :: rest ∧ step s = .next (readMove i { s with script := rest })) ∨
    (∃ rest, s.script = .sync :: rest ∧ hostRead Config.params s 0x27 = 0 ∧
      step s = .next (readMove 0x27 { s with script := rest })) := by
  cases h : s.script with
  | nil => exact .inl ⟨s.script, s.rdData, show step s = engineMove s by simp only [step, advance, h]⟩
  | cons action rest =>
    cases action with
    | wait => exact .inl ⟨rest, s.rdData, by simp only [step, advance, h]⟩
    | read i => exact .inr (.inr (.inl ⟨i, rest, rfl, by simp only [step, advance, h]⟩))
    | push w =>
      cases hr : cmdReady s with
      | true => exact .inr (.inl ⟨w, rest, rfl, rfl, by simp [step, advance, h, hr]⟩)
      | false => exact .inl ⟨s.script, s.rdData, show step s = engineMove s by simp [step, advance, h, hr]⟩
    | sync =>
      by_cases hq : hostRead Config.params s 0x27 = 0
      · exact .inr (.inr (.inr ⟨rest, rfl, hq, by simp only [step, advance, h, if_pos hq]⟩))
      · exact .inl ⟨s.script, hostRead Config.params s 0x27,
          show step s = engineMove (readMove 0x27 s) by simp only [step, advance, h, if_neg hq]⟩

/-- A sample step of the ENGINE always answers a next state. -/
theorem engineMove_next (s : State) :
    ∃ u, atBoundary { s with draws := s.draws + 1 } = .next u ∧
      engineMove s = .next (sampleStep Config.params (Config.idleIn s.draws) u) :=
  engineStep_next Config.params (Config.idleIn s.draws) { s with draws := s.draws + 1 }

end Sys2Proof.Machine
end

