-- ==== Sys2Proof/Laws/PerInstr.lean ====
section
/-! SUPPORT. What holds of the encoding of every command, one lemma per constructor of `Instr`. -/

namespace Sys2Proof.Laws.LegalWord

/-- The word of a command carries the command's opcode in bits 31:28 and has no reserved bit set (R306, R307). -/
def Statement (i : Instr) : Prop :=
  opcodeOf (encode i) = i.opcode ∧ encode i &&& reservedMask i.opcode = 0

theorem nop : Statement .nop := ⟨rfl, rfl⟩

theorem noteOn (side : Bool) (note vel : BitVec 7) : Statement (.noteOn side note vel) := by
  constructor
  · have := note.isLt; have := vel.isLt; have := side.toNat_le
    simp only [opcodeOf_eq, encode_noteOn_toNat, Instr.opcode]; omega
  · apply BitVec.eq_of_getLsbD_eq; intro j hj
    rw [encode, BitVec.getLsbD_and]
    simp only [BitVec.getLsbD_append, Instr.opcode]
    interval_cases j <;> simp [reservedMask]

theorem noteOff (note : BitVec 7) : Statement (.noteOff note) := by
  constructor
  · have := note.isLt
    simp only [opcodeOf_eq, encode_noteOff_toNat, Instr.opcode]; omega
  · apply BitVec.eq_of_getLsbD_eq; intro j hj
    rw [encode, BitVec.getLsbD_and]
    simp only [BitVec.getLsbD_append, Instr.opcode]
    interval_cases j <;> simp [reservedMask]

theorem bend (bval : BitVec 15) : Statement (.bend bval) := by
  constructor
  · have := bval.isLt
    simp only [opcodeOf_eq, encode_bend_toNat, Instr.opcode]; omega
  · apply BitVec.eq_of_getLsbD_eq; intro j hj
    rw [encode, BitVec.getLsbD_and]
    simp only [BitVec.getLsbD_append, Instr.opcode]
    interval_cases j <;> simp [reservedMask]

theorem wreg (index : BitVec 8) (data : BitVec 20) : Statement (.wreg index data) := by
  constructor
  · have := index.isLt; have := data.isLt
    simp only [opcodeOf_eq, encode_wreg_toNat, Instr.opcode]; omega
  · simp [Instr.opcode, reservedMask]

theorem phrst (pmask : BitVec 2) (smask : BitVec 4) : Statement (.phrst pmask smask) := by
  constructor
  · have := pmask.isLt; have := smask.isLt
    simp only [opcodeOf_eq, encode_phrst_toNat, Instr.opcode]; omega
  · apply BitVec.eq_of_getLsbD_eq; intro j hj
    rw [encode, BitVec.getLsbD_and]
    simp only [BitVec.getLsbD_append, Instr.opcode]
    interval_cases j <;> simp [reservedMask]

theorem sreset : Statement .sreset := ⟨rfl, rfl⟩

end Sys2Proof.Laws.LegalWord
end

