-- ==== Sys2Proof/Laws/Registers.lean ====
section
/-! SUPPORT. The register table of Operands.lean against the ranges of WellFormed.lean (R490, R493, R601), index by index:
the facts a proof about WREG or the read port needs of the map. -/

namespace Sys2Proof.Machine

/-- What the map says of one index, next to the ranges that WellFormed.lean writes out. -/
def indexAgrees (i : Fin 256) : Bool :=
  match regOf (BitVec.ofNat 8 i) with
  | none => !wregIndexAccepted i && ((0x15 ≤ i.val && i.val ≤ 0x17) || (0x2A ≤ i.val && i.val ≤ 0x7F))
  | some .status => i.val == 1
  | some reg =>
    i.val != 1 && (reg == .ctrl) == (i.val == 0) && indexOf reg == BitVec.ofNat 8 i &&
      match writeRow reg with
      | none => !wregIndexAccepted i && (i.val == 0x02 || i.val == 0x03 || i.val == 0x04 || i.val == 0x13
          || i.val == 0x14 || (0x1C ≤ i.val && i.val ≤ 0x29))
      | some row => wregIndexAccepted i && wregWidth i == row.width

theorem indexAgrees_all : ∀ i, indexAgrees i = true := by decide +kernel

/-- The unmapped indices (R126), and the indices of STATUS and CTRL. -/
theorem regOf_special : ∀ i : Fin 256,
    (regOf (BitVec.ofNat 8 i) = none ↔ (0x15 ≤ i.val ∧ i.val ≤ 0x17) ∨ (0x2A ≤ i.val ∧ i.val ≤ 0x7F)) ∧
    (regOf (BitVec.ofNat 8 i) = some .status ↔ i.val = 1) ∧
    (regOf (BitVec.ofNat 8 i) = some .ctrl ↔ i.val = 0) := by decide +kernel

/-- The unmapped indices (R126). -/
theorem regOf_none_iff (index : BitVec 8) :
    regOf index = none ↔
      (0x15 ≤ index.toNat ∧ index.toNat ≤ 0x17) ∨ (0x2A ≤ index.toNat ∧ index.toNat ≤ 0x7F) := by
  simpa using (regOf_special ⟨index.toNat, index.isLt⟩).1

/-- STATUS is the register of index 1 alone. -/
theorem regOf_status_iff (index : BitVec 8) : regOf index = some .status ↔ index = 0x01 := by
  simpa [BitVec.toNat_eq] using (regOf_special ⟨index.toNat, index.isLt⟩).2.1

/-- CTRL is the register of index 0 alone. -/
theorem regOf_ctrl_iff (index : BitVec 8) : regOf index = some .ctrl ↔ index = 0x00 := by
  simpa [BitVec.toNat_eq] using (regOf_special ⟨index.toNat, index.isLt⟩).2.2

/-- A CTRL value is refused exactly where WellFormed.lean does not accept its waveform codes (R494). -/
theorem illegalCtrl_eq (data : BitVec 20) : illegalCtrl (data.setWidth 10) = !wavesAccepted data.toNat := by
  have h1 : data.toNat % 1024 / 64 % 4 = data.toNat / 64 % 4 := by omega
  have h2 : data.toNat % 1024 / 256 % 4 = data.toNat / 256 % 4 := by omega
  have key : ∀ a b : Nat, (decide (2 ≤ a) || decide (2 ≤ b)) = !(decide (a < 2) && decide (b < 2)) := by
    intro a b
    by_cases ha : a < 2 <;> by_cases hb : b < 2 <;> simp [ha, hb] <;> omega
  simp only [illegalCtrl, illegalWave, waveOf, wavesAccepted, BitVec.extractLsb'_toNat, BitVec.toNat_setWidth,
    Nat.shiftRight_eq_div_pow]
  norm_num
  rw [h1, h2]
  simpa using key _ _

end Sys2Proof.Machine
end

