-- ==== Sys2Proof/Laws/Waveform.lean ====
section
/-! SUPPORT. The waveform functions in plain arithmetic: the interpolated quarter of the sine and the quadrants around
it (R424). -/

namespace Sys2Proof.Machine

/-- The quarter sine with quotient and remainder in place of the shifts and masks. -/
theorem quarterSine_eq (pos : Nat) :
    quarterSine pos =
      if pos / 2 ^ 14 = 256 then (sineEntry 256 : Int)
      else sineEntry (pos / 2 ^ 14)
        + ((sineEntry (pos / 2 ^ 14 + 1) : Int) - sineEntry (pos / 2 ^ 14)) * (pos % 2 ^ 14 : Nat) / 16384 := by
  unfold quarterSine
  simp only [Nat.shiftRight_eq_div_pow]
  rw [show (0x3FFF : Nat) = 2 ^ 14 - 1 from rfl, Nat.and_two_pow_sub_one_eq_mod]

/-- The sine with quotient and remainder in place of the shifts and masks. -/
theorem sine_eq (phi : Word) :
    sine phi =
      let ph := phi.toNat / 256
      let v := quarterSine (if ph / 2 ^ 22 % 2 = 1 then 2 ^ 22 - ph % 2 ^ 22 else ph % 2 ^ 22)
      if 2 ≤ ph / 2 ^ 22 then -v else v := by
  unfold sine
  simp only [Nat.shiftRight_eq_div_pow]
  rw [show (0x3FFFFF : Nat) = 2 ^ 22 - 1 from rfl, Nat.and_two_pow_sub_one_eq_mod]

/-- The interpolation term lies between 0 and the difference of the two entries. -/
theorem interpolation_bounds {d : Int} {f : Nat} (hd : 0 ≤ d) (hf : f < 16384) :
    0 ≤ d * f / 16384 ∧ d * f / 16384 ≤ d := by
  have h0 : 0 ≤ d * f := mul_nonneg hd (by omega)
  have h1 : d * f ≤ d * 16384 := by gcongr; omega
  omega

/-- A quarter-sine value lies between the entries around its position. -/
theorem quarterSine_bounds {pos : Nat} (h : pos < 2 ^ 22) :
    (sineEntry (pos / 2 ^ 14) : Int) ≤ quarterSine pos ∧ quarterSine pos ≤ sineEntry (pos / 2 ^ 14 + 1) := by
  have hk : pos / 2 ^ 14 < 256 := by omega
  have hm : (sineEntry (pos / 2 ^ 14) : Int) ≤ sineEntry (pos / 2 ^ 14 + 1) := by
    exact_mod_cast sineEntry_mono hk
  rw [quarterSine_eq, if_neg (by omega)]
  have := interpolation_bounds (d := (sineEntry (pos / 2 ^ 14 + 1) : Int) - sineEntry (pos / 2 ^ 14))
    (f := pos % 2 ^ 14) (by omega) (Nat.mod_lt _ (by norm_num))
  omega

theorem quarterSine_top : quarterSine (2 ^ 22) = 32767 := by decide +kernel

/-- The clamp of the feedback sum, written with max and min. -/
theorem clamp_eq_max_min {v lo hi : Int} (h : lo ≤ hi) : clamp v lo hi = max lo (min hi v) := by
  unfold clamp
  split <;> [omega; (split <;> omega)]

end Sys2Proof.Machine
end

