-- ==== Sys2Proof/Tests/Slice0.lean ====
section
/-! SUPPORT. The model's own tests: the smoke of WellFormed, words written out from the spec, results of
95_test_vectors.md, and a state and operands for the hypotheses of every obligation that has some. -/

namespace Sys2Proof.Machine

/-! ### Helpers -/

/-- The parameters of 95_test_vectors.md. -/
def vectorParams : Params := ⟨48000, 4⟩

/-- The reset state with words queued. -/
def queued (ws : List Word) : State := { State.reset with q := ws }

/-- Whether the outcome is a next state with a property. -/
def nextHas (o : Host.Outcome State Fault Refusal) (p : State → Bool) : Bool :=
  match o with
  | .next s => p s
  | .fault _ => false
  | .refused _ => false

/-- What a register reads as after a drain of words from reset. -/
def readAfter (ws : List Word) (i : BitVec 8) : Option Word :=
  match drain (queued ws) with
  | .next s => some (hostRead vectorParams s i)
  | .fault _ => none
  | .refused _ => none

/-- STATUS and ERRCMD after a drain of words from reset. -/
def errorAfter (ws : List Word) : Option Word × Option Word := (readAfter ws 0x01, readAfter ws 0x02)

/-- The samples and the four phases after steps with the given values of `idle_in`, words queued at reset. -/
def samplesAfter (ws : List Word) (idles : List Bool) : Option (Int × Int × Four Word) :=
  match engineRun vectorParams idles (queued ws) with
  | .next s => some (s.frame.out0, s.frame.out1, s.regs.phase)
  | .fault _ => none
  | .refused _ => none

/-! ### WellFormed refuses an ill-formed term for each of its checks -/

theorem test_ill_formed_unmapped_index : (Instr.wreg 0x15 0).wellFormed = false := by decide
theorem test_ill_formed_read_only_index : (Instr.wreg 0x03 0).wellFormed = false := by decide
theorem test_ill_formed_width : (Instr.wreg 0x05 32).wellFormed = false := by decide
theorem test_ill_formed_status_data : (Instr.wreg 0x01 2).wellFormed = false := by decide
theorem test_ill_formed_wave0 : (Instr.wreg 0x00 0x1C6).wellFormed = false := by decide
theorem test_ill_formed_wave1 : (Instr.wreg 0x00 0x2C6).wellFormed = false := by decide

/-! ### Words written out from R301 to R305, read by the decoder (95 L2.1) -/

theorem test_word_nop : decode 0b0000_0000000000000000000000000000 = .instr .nop := by decide
theorem test_word_noteOn :
    decode 0b0001_0000000000000_1_0111100_1000000 = .instr (.noteOn true 60 64) := by decide
theorem test_word_noteOff : decode 0b0010_00000000000000_1000101_0000000 = .instr (.noteOff 69) := by decide
theorem test_word_bend : decode 0b0011_0000000000000_110000000000000 = .instr (.bend (-8192)) := by decide
theorem test_word_wreg :
    decode 0b0100_00001000_00011100000000000000 = .instr (.wreg 0x08 0x1C000) := by decide
theorem test_word_phrst : decode 0b0101_0000000000000000000000_00_0010 = .instr (.phrst 0 2) := by decide
theorem test_word_sreset : decode 0b0110_0000000000000000000000000000 = .instr .sreset := by decide
theorem test_opcode_check_comes_first : decode 0x7FFFFFFF = .error .illegalOpcode := by decide
theorem test_reserved_bit_of_bend : decode 0x30008000 = .error .reservedBits := by decide
theorem test_table_word : decodeTableWord 32 0x4C504000 = some (.wreg 0xC5 0x4000) := by decide

/-! ### Results of 95_test_vectors.md -/

theorem test_nop : exec .nop State.reset = .next State.reset := rfl

/-- L2.4.1. -/
theorem test_noteOn : readAfter [0x10005E40] 0x03 = some 0x7403C ∧ readAfter [0x10005E40] 0x26 = some 16513 := by
  decide

/-- L2.4.3, second row: PWB10 20000, PWKT 512, PWVEL 6400, note 36, velocity 1, side 1. -/
theorem test_noteOn_pulse_width :
    readAfter [0x40E04E20, 0x41000200, 0x41201900, 0x10005201] 0x13 = some 38637 := by decide

/-- L2.4.2. -/
theorem test_noteOff : readAfter [0x10005E40, 0x20001E00] 0x03 = some 0x6403C := by decide

/-- L2.4.2: a stale note-off. -/
theorem test_noteOff_stale : readAfter [0x10005E40, 0x20001E80] 0x03 = some 0x7403C := by decide

/-- L2.2, the bend path. -/
theorem test_bend : readAfter [0x30004000] 0x04 = some 0xFFFFE000 ∧ readAfter [0x30004000] 0x20 = some 460853 := by
  decide

/-- L2.6. -/
theorem test_wreg_clamps : readAfter [0x40810000] 0x08 = some 0xFFFF8001 := by decide

/-- L2.8: the first error is kept and the drain goes on. -/
theorem test_wreg_refused : errorAfter [0x41C80000, 0x70000000] = (some 0x9, some 0x41C80000) := by decide

/-- L2.5.2 and P3: PHRST of slot 1 and channel R after a step leaves the rest. -/
theorem test_phrst :
    nextHas (exec (.phrst 0x2 0x2) { State.reset with
      regs := { Regs.reset with phase := ⟨1, 2, 3, 4⟩, prev := ⟨5, 6⟩ } })
      (fun t => t.regs.phase = ⟨1, 0, 3, 4⟩ ∧ t.regs.prev = ⟨5, 0⟩) = true := by decide

/-- L2.7: NOTE_ON 64,100, SRESET, NOTE_ON 65,10 in one drain. -/
theorem test_sreset : readAfter [0x10002064, 0x60000000, 0x1000208A] 0x03 = some 0x30A41 := by decide

/-- L2.3. -/
theorem test_sine : sine 0x0258BF26 = 1886 ∧ sine 0xA0000000 = -23170 := by decide
theorem test_pulse : pulse 0x028F0000 656 = 32767 ∧ pulse 0x02900000 656 = -32767 := by decide

/-- L2.2: the greatest pitch, reduced modulo 2^32; and the least pitch, where R404 worked by hand gives
`floor(2580187286514 * 3037000500 * 256 / 2^64 + 1/2)` and the table of L2.2 another number (log entry 12). -/
theorem test_pitch : pitchToFtw 48000 10420223 4096 = 2359995419 ∧ pitchToFtw 48000 (-2162688) 256 = 108747 := by
  decide

/-- L2.2, ratio selection: in FM mode with RATIO 4096, slots S0 and S1. -/
theorem test_ratio :
    readAfter [0x40000147, 0x40601000, 0x100022FF] 0x20 = some 39370534 ∧
      readAfter [0x40000147, 0x40601000, 0x100022FF] 0x21 = some 629928537 := by decide

/-- Program P1, step 2: SUB mode. -/
theorem test_sub_mode :
    samplesAfter [0x40000116, 0x41901000, 0x40D00290, 0x100022FF] [false, false, false] =
      some (3765, -32767, ⟨0x070A3D72, 0x0710C214, 0, 0⟩) := by decide

/-- The words of program P3. -/
def fmWords : List Word :=
  [0x40000157, 0x40701000, 0x40600200, 0x40804000, 0x40B04000, 0x41A01000, 0x100022E4]

/-- Program P3, step 3: FM mode. -/
theorem test_fm_mode :
    samplesAfter fmWords [false, false, false, false] =
      some (-20019, -30487, ⟨0xE790FC98, 0x12C5F92C, 0xD1A3AD70, 0x12C5F92C⟩) := by decide

/-- Program P3c, step 3: own-channel feedback of the raw modulator. -/
theorem test_fm_mode_raw_feedback :
    samplesAfter (0x4000015B :: fmWords.tail) [false, false, false, false] =
      some (-22272, -31446, ⟨0xE3E4FC98, 0x12C5F92C, 0xCDF5AD70, 0x12C5F92C⟩) := by decide

/-- L2.5.4: the step after a release that ends is silent. -/
theorem test_release :
    samplesAfter [0x100022FF, 0x20002280] [true, true] = some (0, 0, ⟨0x0258BF26, 0x0258BF26, 0, 0⟩) := by
  decide

/-! ### Assembler lines (95 L2.1) -/

theorem test_assembler_wreg :
    (readLine "  WREG  FB, -16384   ; half".toList).bind assemble = some 0x4081C000 := by decide
theorem test_assembler_setnds : (readLine "SETNDS 69, 16384".toList).bind assemble = some 0x4C504000 := by
  decide
theorem test_assembler_phrst : (readLine "PHRST 0x2".toList).bind assemble = some 0x50000002 := by decide
theorem test_assembler_refuses : (readLine "NOTE_ON 128, 1".toList).bind assemble = none := by decide
theorem test_assembler_program :
    assembleProgram ["NOTE_ON 60, 64, 1".toList, "; rest".toList, "SYNC".toList] =
      some [.push 0x10005E40, .sync] := by decide

/-- Log entry 14: an operand of `.word` outside 32 bits gives its image modulo 2^32. -/
theorem test_assembler_dotWord :
    (readLine ".word 0x70000000".toList).bind assemble = some 0x70000000 ∧
      (readLine ".word -1".toList).bind assemble = some 0xFFFFFFFF := by decide

/-! ### Witnesses: what meets the hypotheses of the obligations -/

/-- A sounding SUB-mode voice in the middle of a block: no register at its reset value that a run would move. -/
def soundingRegs : Regs :=
  { Regs.reset with
    note := 69, vel := 127, gate := true, active := true, phase := ⟨1000, 2000, 3000, 4000⟩, prev := ⟨7, -7⟩
    err := true, errcode := 5, errcmd := 0x400001C6 }

theorem test_witness_soundingRegs_legal : soundingRegs.Legal where
  waves := by decide
  noError := by decide
  latched := by decide
  note := by decide
  assigned := by decide
  sounding := by decide
  gated := by decide
  bend := by decide
  bendrange := by decide
  ratio := by decide
  modidx := by decide
  fb := by decide
  vbdepth := by decide
  asym := by decide
  pweff := by decide
  prev := by decide
  nds := by decide

/-- A legal state away from reset, with a word queued. -/
def soundingState : State := { queued [0x60000000] with regs := soundingRegs }

theorem test_witness_LegalWordIsUnique : decode 0x100022FF = .instr (.noteOn false 69 127) := by decide

theorem test_witness_ApplyDecodesAndPerforms :
    let op := fun w : Word => w.toNat / 2 ^ 28
    let low := fun w : Word => w.toNat % 2 ^ 28
    (7 ≤ op 0x70000000 ∧ 7 ≤ op 0xFFFFFFFF) ∧
    (op 0x00000001 = 0 ∧ low 0x00000001 ≠ 0) ∧ (op 0x0FFFFFFF = 0 ∧ low 0x0FFFFFFF ≠ 0) ∧
    (op 0x00000000 = 0 ∧ low 0x00000000 = 0) ∧
    (op 0x10008000 = 1 ∧ low 0x10008000 / 2 ^ 15 ≠ 0) ∧ (op 0x10007FFF = 1 ∧ low 0x10007FFF / 2 ^ 15 = 0) ∧
    (op 0x20004000 = 2 ∧ low 0x20004000 / 2 ^ 14 ≠ 0) ∧ (op 0x20000001 = 2 ∧ (0x20000001 : Word).toNat % 2 ^ 7 ≠ 0) ∧
    (op 0x20003F80 = 2 ∧ low 0x20003F80 / 2 ^ 14 = 0 ∧ (0x20003F80 : Word).toNat % 2 ^ 7 = 0) ∧
    (op 0x30008000 = 3 ∧ low 0x30008000 / 2 ^ 15 ≠ 0) ∧ (op 0x30007FFF = 3 ∧ low 0x30007FFF / 2 ^ 15 = 0) ∧
    op 0x4FFFFFFF = 4 ∧
    (op 0x50000040 = 5 ∧ low 0x50000040 / 2 ^ 6 ≠ 0) ∧ (op 0x5000003F = 5 ∧ low 0x5000003F / 2 ^ 6 = 0) ∧
    (op 0x60000001 = 6 ∧ low 0x60000001 ≠ 0) ∧ (op 0x60000000 = 6 ∧ low 0x60000000 = 0) := by decide

theorem test_witness_StepRunsDecodedCommand :
    let s := State.reset.withFetchWord 32 0x100022FF
    let t : State := { s with script := [.wait] }
    (s.script = [] ∨ s.script.head? = some .wait) ∧ s.blkpos = 0 ∧ s.q = [0x100022FF] ∧
      (t.script = [] ∨ t.script.head? = some .wait) ∧ t.blkpos = 0 ∧ t.q = [0x100022FF] ∧
      decode 0x100022FF = .instr (.noteOn false 69 127) := by decide

/-- A step in which ERR rises. -/
theorem test_witness_StepAlwaysGoesOn :
    ((queued [0x70000000]).regs.err = false ∧ ∃ t, step (queued [0x70000000]) = .next t ∧ t.regs.err = true) ∧
    (let s : State := { queued (List.replicate 63 0) with script := [.push 0x70000000] }
     s.script = .push 0x70000000 :: [] ∧ s.q.length < 64) ∧
    ({ queued [0x70000000] with script := [.read 0x01] } : State).script = .read 0x01 :: [] :=
  ⟨⟨rfl, _, rfl, rfl⟩, by decide, rfl⟩

theorem test_witness_MidBlockStepAppliesNothing :
    ({ soundingState with blkpos := 1 } : State).blkpos ≠ 0 ∧
      nextHas (engineStep vectorParams false { soundingState with blkpos := 1 }) (fun t => t.regs.active) = true := by
  decide

theorem test_witness_CommandLatencyIsAtMostOneBlock :
    (2 < vectorParams.block ∧ [false, true].length = (vectorParams.block - 2) % vectorParams.block) ∧
    (0 < vectorParams.block ∧ ([] : List Bool).length = (vectorParams.block - 0) % vectorParams.block) ∧
    (3 < vectorParams.block ∧ [true].length = (vectorParams.block - 3) % vectorParams.block) := by decide

theorem test_witness_BlockPositionCountsSteps :
    (∃ t, engineStep vectorParams true { State.reset with blkpos := 3 } = .next t ∧ t.blkpos = 0) ∧
      ∃ t, exec .sreset { State.reset with blkpos := 3 } = .next t ∧ t.blkpos = 3 :=
  ⟨⟨_, rfl, rfl⟩, ⟨_, rfl, rfl⟩⟩

theorem test_witness_StepKeepsLegalState :
    soundingState.Legal Config.params ∧ ∃ t, step soundingState = .next t :=
  ⟨⟨test_witness_soundingRegs_legal, by decide, Nat.succ_pos _, ⟨by decide, by decide, by decide, by decide⟩⟩,
    _, rfl⟩

/-- An active and an inactive state; the second one stays inactive. -/
theorem test_witness_StepKeepsGateOnlyWhileActive :
    ((soundingState.regs.active = false → soundingState.regs.gate = false) ∧ ∃ t, step soundingState = .next t) ∧
    (State.reset.regs.active = false → State.reset.regs.gate = false) ∧
      ∃ t, step State.reset = .next t ∧ t.regs.active = false :=
  ⟨⟨by decide, _, rfl⟩, by decide, _, rfl, rfl⟩

theorem test_witness_InactiveStepIsSilent :
    ∃ u, atBoundary (queued [0x30002000]) = .next u ∧ u.regs.active = false := ⟨_, rfl, rfl⟩

/-- A SUB-mode voice with a sine and a pulse oscillator. -/
theorem test_witness_SubModeStep :
    ∃ u, atBoundary (queued [0x40000116, 0x100022FF]) = .next u ∧ u.regs.active = true ∧
      u.regs.ctrl.getLsbD 0 = false ∧ u.regs.ctrl.toNat / 2 ^ 6 % 4 = 0 ∧ u.regs.ctrl.toNat / 2 ^ 8 % 4 = 1 :=
  ⟨_, rfl, rfl, rfl, rfl, rfl⟩

theorem test_witness_FmModeStep :
    (∃ u, atBoundary (queued fmWords) = .next u ∧ u.regs.active = true ∧ u.regs.ctrl.getLsbD 0 = true ∧
      0 ≤ u.regs.note.toInt) ∧
    ((0 : Slot).val = 2 * (0 : Chan).val ∧ (1 : Slot).val = 2 * (0 : Chan).val + 1) ∧
    (2 : Slot).val = 2 * (1 : Chan).val ∧ (3 : Slot).val = 2 * (1 : Chan).val + 1 :=
  ⟨⟨_, rfl, rfl, rfl, by decide⟩, by decide, by decide⟩

/-- A voice in its release. -/
theorem test_witness_ReleaseEndsOnIdle :
    ∃ u, atBoundary (queued [0x100022FF, 0x20002280]) = .next u ∧ u.regs.active = true ∧ u.regs.gate = false :=
  ⟨_, rfl, rfl, rfl⟩

theorem test_witness_OutputPortsFollowDrain :
    ∃ u, atBoundary (queued [0x100022FF]) = .next u ∧ u.regs.vel = 127 := ⟨_, rfl, rfl⟩

/-- Two register files that differ in what only FM mode reads. -/
theorem test_witness_SubModeIgnoresFmState :
    let r := soundingRegs
    let r' : Regs := { r with fb := 5, ratio := 9, modidx := 3, prev := ⟨1, 2⟩, phase := ⟨1000, 2000, 0, 0⟩ }
    r ≠ r' ∧ r.active = true ∧ r'.active = true ∧ r.fmMode = false ∧ r'.ctrl = r.ctrl ∧ r'.note = r.note ∧
      r'.bend = r.bend ∧ r'.bendrange = r.bendrange ∧ r'.pweff = r.pweff ∧
      ∀ n : Slot, n.val < 2 → r'.phase.get n = r.phase.get n ∧ r'.detune.get n = r.detune.get n := by
  decide

/-- The widest operands, and a product that truncates toward minus infinity. -/
theorem test_witness_FeedbackTermIsContractive :
    (-32767 ≤ (32767 : Int) ∧ (32767 : Int) ≤ 32767 ∧ 0 ≤ (32768 : Int) ∧ (32768 : Int) ≤ 32768) ∧
      feedbackTerm (-1) 1 32768 32768 = -1 ∧ feedbackTerm (-32767) 32767 32768 32768 = -32767 := by decide

theorem test_witness_ModulationIndexIsBounded : soundingRegs.Legal ∧ soundingRegs.vel = 127 :=
  ⟨test_witness_soundingRegs_legal, rfl⟩

theorem test_witness_WaveformRange :
    (256 ≤ 256 ∧ sineEntry 256 = 32767 ∧ sineEntry 128 = 23170) ∧
    sine 0x40000000 = 32767 ∧ sine 0x400000FF = 32767 ∧ sine 0xC0000000 = -32767 ∧ sine 0x3FFFFF00 = 32766 ∧
      ∃ t, engineStep vectorParams false (queued [0x100022FF]) = .next t :=
  ⟨by decide, by decide, by decide, by decide, by decide, _, rfl⟩

theorem test_witness_SineReflections : (0x00000100 : Word).toNat % 256 = 0 ∧ sine 0x7FFFFF00 = sine 0x00000100 := by
  decide

theorem test_witness_SineRisesOnFirstQuarter :
    (0x00400000 : Word).toNat ≤ (0x40000000 : Word).toNat ∧ (0x40000000 : Word).toNat ≤ 2 ^ 30 := by decide

theorem test_witness_PulseIsHighForItsWidth :
    (0x028FFFFF : Word).toNat < 656 * 65536 ∧ 656 * 65536 ≤ (0x02900000 : Word).toNat := by decide

/-- The last entry of table E. -/
theorem test_witness_TableEIsRoundedExponential : 192 ≤ 192 ∧ expEntry 192 = 4294967296 ∧ expEntry 0 = 2147483648 := by
  decide

theorem test_witness_PitchFormulaAndRange : soundingRegs.Legal ∧ pitchOf soundingRegs 0 = 4521984 :=
  ⟨test_witness_soundingRegs_legal, by decide⟩

theorem test_witness_TuningConstantIsRounded : 0 < 1 ∧ kA4 1 = 440 * 2 ^ 48 := by decide

/-- Both ends of the pitch range. -/
theorem test_witness_PitchIntermediatesInRange :
    ((-33 * 65536 ≤ (-2162688 : Int) ∧ (-2162688 : Int) < 159 * 65536) ∧ octaveOf (-2162688) = -9) ∧
    (-33 * 65536 ≤ (10420223 : Int) ∧ (10420223 : Int) < 159 * 65536) ∧ octaveOf 10420223 = 7 := by decide

theorem test_witness_TuningWordIsRounded :
    -33 * 65536 ≤ (10420223 : Int) ∧ (10420223 : Int) < 159 * 65536 := by decide

theorem test_witness_TuningWordIsMonotone :
    -33 * 65536 ≤ (-65536 : Int) ∧ (-65536 : Int) ≤ -65535 ∧ (-65535 : Int) < 159 * 65536 ∧ 1 ≤ 4096 := by decide

theorem test_witness_NopChangesNothing : (0x08000000 : Word).toNat / 2 ^ 28 = 0 ∧ (0x08000000 : Word) ≠ 0 := by
  decide

/-- The least and the greatest velocity, and a state with NRST = 1. -/
theorem test_witness_NoteOnSounds :
    (1 : BitVec 7) ≠ 0 ∧ (127 : BitVec 7) ≠ 0 ∧
      ({ Regs.reset with ctrl := 0x156 } : Regs).nrst = true ∧ Regs.reset.nrst = false := by decide

/-- Accepted writes at the ends of the index ranges, and with the most DATA that fits. -/
theorem test_witness_WregStoresTableValue :
    ([(0x00, 0x15F), (0x05, 31), (0x08, 0x1FFFF), (0x11, 127), (0x12, 0xFFFF), (0x18, 0xFFFFF), (0x1B, 0),
        (0x80, 0xFFFF), (0xFF, 0)] : List (BitVec 8 × BitVec 20)).all
      (fun w => w.1 != 0x01 && (Instr.wreg w.1 w.2).wellFormed) = true := by decide

/-- Each kind of refusal at the ends of its ranges; no index falls under two of them. -/
theorem test_witness_WregRefusals :
    let readOnly := fun i : Nat => i = 0x02 ∨ i = 0x03 ∨ i = 0x04 ∨ i = 0x13 ∨ i = 0x14 ∨ (0x1C ≤ i ∧ i ≤ 0x29)
    let unmapped := fun i : Nat => (0x15 ≤ i ∧ i ≤ 0x17) ∨ (0x2A ≤ i ∧ i ≤ 0x7F)
    (readOnly 0x02 ∧ readOnly 0x14 ∧ readOnly 0x1C ∧ readOnly 0x29) ∧
    (unmapped 0x15 ∧ unmapped 0x17 ∧ unmapped 0x2A ∧ unmapped 0x7F) ∧
    (∀ i, ¬(readOnly i ∧ unmapped i)) ∧
    (¬readOnly 0x05 ∧ ¬unmapped 0x05 ∧ 2 ^ wregWidth 0x05 ≤ 32) ∧
    (¬readOnly 0x00 ∧ ¬unmapped 0x00 ∧ 2 ^ wregWidth 0x00 ≤ 0x400) ∧
    (0x180 < 2 ^ 10 ∧ 2 ≤ 0x180 / 2 ^ 6 % 4) ∧ (0x3FF < 2 ^ 10 ∧ 2 ≤ 0x3FF / 2 ^ 8) := by
  dsimp only
  exact ⟨by decide, by decide, by omega, by decide, by decide, by decide⟩

theorem test_witness_StatusWriteOneToClear :
    (0 : BitVec 20) = 0 ∧ (1 : BitVec 20) = 1 ∧ 2 ≤ (2 : BitVec 20).toNat ∧ 2 ≤ (3 : BitVec 20).toNat := by decide

theorem test_witness_PhrstZeroesSelected :
    (0x8 : BitVec 4).getLsbD (3 : Slot) = true ∧ (0x8 : BitVec 4).getLsbD (0 : Slot) = false ∧
      (0x2 : BitVec 2).getLsbD (1 : Chan) = true := by decide

theorem test_witness_SresetRestoresResetValues :
    Reg.phase 0 ≠ .qlevel ∧ Reg.phase 0 ≠ .blkpos ∧
      view vectorParams soundingState (.phase 0) ≠ view vectorParams State.reset (.phase 0) := by decide

/-- Both errors of decoding, and a WREG for each of its four causes with the STATUS of L2.6. -/
theorem test_witness_FirstErrorIsKept :
    decode 0x7FFFFFFF = .error .illegalOpcode ∧ decode 0x30008000 = .error .reservedBits ∧
      soundingState.regs.err = true ∧ State.reset.regs.err = false ∧
      ((Instr.wreg 0x15 0).wellFormed = false ∧ readAfter [0x41500000] 0x01 = some 0x7) ∧
      ((Instr.wreg 0x1C 5).wellFormed = false ∧ readAfter [0x41C00005] 0x01 = some 0x9) ∧
      ((Instr.wreg 0x05 32).wellFormed = false ∧ readAfter [0x40500020] 0x01 = some 0x5) ∧
      ((Instr.wreg 0x00 0x2C6).wellFormed = false ∧ readAfter [0x400002C6] 0x01 = some 0xB) := by decide

theorem test_witness_ErroneousWordOnlyLatches :
    (∃ e, decode 0x70000000 = .error e) ∧
      (∃ i, decode 0x40300000 = .instr i ∧ i.wellFormed = false) ∧
      soundingState.regs.err = true ∧ State.reset.regs.err = false :=
  ⟨⟨_, rfl⟩, ⟨_, rfl, by decide⟩, rfl, rfl⟩

theorem test_witness_WellFormedCommandsNeverRaise :
    State.reset.regs.err = false ∧ (Instr.wreg 0x08 0x1FFFF).wellFormed = true ∧
      (Instr.wreg 0x08 0x20000).wellFormed = false := by decide

theorem test_witness_ApplyingTwiceIsApplyingOnce : ∃ t, applyWord 0x60000000 soundingState = .next t := ⟨_, rfl⟩

/-- A drain that raises the interrupt line (95 L2.8, last row). -/
theorem test_witness_InterruptFollowsErrorLatch :
    irqOut (queued [0x40000166, 0x70000000]) = false ∧
      ∃ t, step (queued [0x40000166, 0x70000000]) = .next t ∧ irqOut t = true := ⟨rfl, _, rfl, rfl⟩

theorem test_witness_PhaseWriters :
    (∃ t, exec (.phrst 0 1) soundingState = .next t ∧ t.regs.phase ≠ soundingState.regs.phase) ∧
    (∃ t, exec .sreset soundingState = .next t ∧ t.regs.phase ≠ soundingState.regs.phase) ∧
    (let s := soundingState.withRegs { soundingRegs with ctrl := 0x156 }
     ∃ t, exec (.noteOn false 1 1) s = .next t ∧ t.regs.phase ≠ s.regs.phase) ∧
    (sampleStep vectorParams false soundingState).regs.phase ≠ soundingState.regs.phase :=
  ⟨⟨_, rfl, by decide⟩, ⟨_, rfl, by decide⟩, ⟨_, rfl, by decide⟩, by decide⟩

theorem test_witness_PulseWidthWriters :
    let s := soundingState.withRegs { soundingRegs with pweff := ⟨656, 64880⟩ }
    (∃ t, exec (.noteOn false 1 1) s = .next t ∧ t.regs.pweff ≠ s.regs.pweff) ∧
      ∃ t, exec .sreset s = .next t ∧ t.regs.pweff ≠ s.regs.pweff :=
  ⟨⟨_, rfl, by decide⟩, ⟨_, rfl, by decide⟩⟩

theorem test_witness_VoiceStateWriters :
    (∃ t, exec (.bend 1) soundingState = .next t ∧ t.regs.bend ≠ soundingState.regs.bend) ∧
    (∃ t, exec (.noteOn true 1 1) soundingState = .next t ∧ t.regs.note ≠ soundingState.regs.note) ∧
    (∃ t, exec (.noteOff 69) soundingState = .next t ∧ t.regs.gate ≠ soundingState.regs.gate) ∧
    ∃ t, exec (.noteOn true 69 0) soundingState = .next t ∧ t.regs.gate ≠ soundingState.regs.gate :=
  ⟨⟨_, rfl, by decide⟩, ⟨_, rfl, by decide⟩, ⟨_, rfl, by decide⟩, ⟨_, rfl, by decide⟩⟩

theorem test_witness_ModeSwitchesOnlyAtBoundary :
    ∃ t, step (queued [0x40000157]) = .next t ∧ t.regs.ctrl ≠ (queued [0x40000157]).regs.ctrl :=
  ⟨_, rfl, by decide⟩

theorem test_witness_NoteOnAndOffInOneDrain :
    let s := queued [0x100022FF, 0x20002280]
    (127 : BitVec 7) ≠ 0 ∧ s.blkpos = 0 ∧ s.q = [encode (.noteOn false 69 127), encode (.noteOff 69)] := by decide

/-- A push with room in the queue, and one that waits. -/
theorem test_witness_HostPushAppends :
    let s : State := { queued (List.replicate 63 0) with script := [.push 0x60000000] }
    let full : State := { queued (List.replicate 64 0) with script := [.push 0x60000000] }
    (s.script = .push 0x60000000 :: [] ∧ s.q.length < 64) ∧
      full.script = .push 0x60000000 :: [] ∧ 64 ≤ full.q.length := by decide

theorem test_witness_HostReadHasNoSideEffect :
    ({ State.reset with script := [.read 0x15, .wait] } : State).script = .read 0x15 :: [.wait] ∧
      (0x15 ≤ (0x15 : BitVec 8).toNat ∧ (0x15 : BitVec 8).toNat ≤ 0x17) ∧
      0x2A ≤ (0x7F : BitVec 8).toNat ∧ (0x7F : BitVec 8).toNat ≤ 0x7F := by decide

theorem test_witness_ReadsDoNotForwardFromQueue : (0x00 : BitVec 8) ≠ 0x27 := by decide

theorem test_witness_SyncWaitsForDrain :
    let s : State := { State.reset with script := [.sync, .wait] }
    let t : State := { s with q := List.replicate 64 0 }
    (s.script = .sync :: [.wait] ∧ s.q.length ≤ 64 ∧ s.q = []) ∧
      t.script = .sync :: [.wait] ∧ t.q.length ≤ 64 ∧ t.q ≠ [] := by decide

theorem test_witness_ResetReads :
    (0x15 ≤ (0x17 : BitVec 8).toNat ∧ (0x17 : BitVec 8).toNat ≤ 0x17) ∧
      0x2A ≤ (0x2A : BitVec 8).toNat ∧ (0x2A : BitVec 8).toNat ≤ 0x7F := by decide

theorem test_witness_AssemblerWordsDecode :
    assemble (.noteOn 60 64 1) = some 0x10005E40 ∧ (∀ v, AsmLine.noteOn 60 64 1 ≠ .dotWord v) ∧
      127 < 128 ∧ 2 ^ 20 - 1 < 2 ^ 20 :=
  ⟨by decide, by simp, by decide, by decide⟩

end Sys2Proof.Machine
end

section
/-! SUPPORT. Proofs about the state of 10_state.md: the legal state that every action keeps (O11), the voice and who writes
it (O13, O52, O36), the error latch (O45), and the block counter and ports (O10, O18, O56, O57). -/

namespace Sys2Proof.Machine

/-! ### One action and the registers: the induction of every register invariant -/

/-- What an answered action is: a sample of the state after the drain, taken with the model's own fields moved on; a push
with room; or a read. -/
theorem step_eq_next_cases {s t : State} (h : step s = .next t) :
    (∃ script rdData draws idle u,
      atBoundary { s with script := script, rdData := rdData, draws := draws } = .next u ∧
        t = sampleStep Config.params idle u) ∨
    (∃ w rest, cmdReady s = true ∧ t = hostPush w { s with script := rest }) ∨
    ∃ i rest, t = readMove i { s with script := rest } := by
  obtain ⟨script, rdData, he⟩ | ⟨w, rest, _, hready, he⟩ | ⟨i, rest, _, he⟩ | ⟨rest, _, _, he⟩ := step_cases s
  · obtain ⟨u, hu, hmove⟩ := engineMove_next { s with script := script, rdData := rdData }
    rw [he, hmove] at h
    cases h
    exact .inl ⟨script, rdData, _, _, u, hu, rfl⟩
  · rw [he] at h
    cases h
    exact .inr (.inl ⟨w, rest, hready, rfl⟩)
  · rw [he] at h
    cases h
    exact .inr (.inr ⟨i, rest, rfl⟩)
  · rw [he] at h
    cases h
    exact .inr (.inr ⟨0x27, rest, rfl⟩)

/-- A property of the registers that every command and every raised error keeps is kept by the drain. -/
theorem atBoundary_regs_induction {p : Regs → Prop}
    (hexec : ∀ i s t, p s.regs → exec i s = .next t → p t.regs)
    (herror : ∀ e w s, p s.regs → p (latchError e w s).regs)
    {s u : State} (hs : p s.regs) (h : atBoundary s = .next u) : p u.regs := by
  have hword : ∀ w s t, p s.regs → applyWord w s = .next t → p t.regs := by
    intro w s t hs h
    unfold applyWord at h
    split at h
    · exact hexec _ s t hs h
    · cases h
      exact herror _ w s hs
  unfold atBoundary drain at h
  split at h
  · obtain ⟨v, hv, hu⟩ := andThen_eq_next h
    cases hu
    show p v.regs
    exact applyAll_induction (p := fun s => p s.regs) hword hs hv
  · cases h
    exact hs

/-- A property of the registers that commands, raised errors and samples keep is kept by every action. -/
theorem step_regs_induction {p : Regs → Prop}
    (hexec : ∀ i s t, p s.regs → exec i s = .next t → p t.regs)
    (herror : ∀ e w s, p s.regs → p (latchError e w s).regs)
    (hsample : ∀ P idle s, p s.regs → p (sampleStep P idle s).regs)
    {s t : State} (hs : p s.regs) (h : step s = .next t) : p t.regs := by
  obtain ⟨_, _, _, _, _, hu, rfl⟩ | ⟨_, _, _, rfl⟩ | ⟨_, _, rfl⟩ := step_eq_next_cases h
  · refine hsample _ _ _ (atBoundary_regs_induction hexec herror ?_ hu)
    exact hs
  · exact hs
  · exact hs

/-! ### The ranges of the samples (R426, R453) -/

theorem quarterSine_range {pos : Nat} (h : pos ≤ 2 ^ 22) : 0 ≤ quarterSine pos ∧ quarterSine pos ≤ 32767 := by
  obtain rfl | hlt := h.eq_or_lt
  · rw [quarterSine_top]
    decide
  · have hentry := sineEntry_le (pos / 2 ^ 14 + 1)
    have hbounds := quarterSine_bounds hlt
    omega

theorem sine_range (phi : Word) : -32767 ≤ sine phi ∧ sine phi ≤ 32767 := by
  have hpos (ph : Nat) : (if ph / 2 ^ 22 % 2 = 1 then 2 ^ 22 - ph % 2 ^ 22 else ph % 2 ^ 22) ≤ 2 ^ 22 := by
    split <;> omega
  have hquarter := quarterSine_range (hpos (phi.toNat / 256))
  rw [sine_eq]
  dsimp only
  split <;> omega

theorem waveform_range (code : BitVec 2) (phi : Word) (pw : Nat) :
    -32767 ≤ waveform code phi pw ∧ waveform code phi pw ≤ 32767 := by
  unfold waveform
  split
  · exact sine_range phi
  · have hpulse := pulse_cases phi pw
    omega

theorem subSample_range (r : Regs) (o : Osc) : -32767 ≤ subSample r o ∧ subSample r o ≤ 32767 :=
  match o with
  | 0 => waveform_range _ _ _
  | 1 => waveform_range _ _ _

/-- Bounds of an integer that a width can hold are bounds of its storage in that width. -/
theorem toInt_ofInt_range {w : Nat} {v lo hi : Int} (hv : lo ≤ v ∧ v ≤ hi) (hlo : -(2 ^ w) ≤ 2 * lo)
    (hhi : 2 * hi < 2 ^ w) : lo ≤ (BitVec.ofInt w v).toInt ∧ (BitVec.ofInt w v).toInt ≤ hi := by
  rwa [toInt_ofInt_of_range (by omega) (by omega)]

/-- A sample step stores the raw modulator or the clamped signal; both are Q1.15 (R446, R449). -/
theorem storedModulator_range (k : FmFactors) (r r' : Regs) (c : Chan) :
    -32767 ≤ (storedModulator r (fmOut k r' c)).toInt ∧ (storedModulator r (fmOut k r' c)).toInt ≤ 32767 := by
  refine toInt_ofInt_range ?_ (by decide) (by decide)
  split
  · exact sine_range _
  · exact clamp_bounds (by decide)

theorem computeSample_range (P : Params) (r : Regs) :
    (-32767 ≤ (computeSample P r).out0 ∧ (computeSample P r).out0 ≤ 32767) ∧
      -32767 ≤ (computeSample P r).out1 ∧ (computeSample P r).out1 ≤ 32767 := by
  unfold computeSample
  split
  · norm_num
  · split
    · exact ⟨sine_range _, sine_range _⟩
    · exact ⟨subSample_range r 0, subSample_range r 1⟩

/-- A sample keeps the feedback values in Q1.15 (R120, R449). -/
theorem computeSample_prev_range (P : Params) {r : Regs}
    (h : ∀ c, -32767 ≤ (r.prev.get c).toInt ∧ (r.prev.get c).toInt ≤ 32767) (c : Chan) :
    -32767 ≤ ((computeSample P r).regs.prev.get c).toInt ∧
      ((computeSample P r).regs.prev.get c).toInt ≤ 32767 := by
  unfold computeSample
  split
  · exact h c
  · split
    · match c with
      | 0 => exact storedModulator_range _ _ _ _
      | 1 => exact storedModulator_range _ _ _ _
    · exact h c

theorem velampOf_le (r : Regs) : velampOf r ≤ 32768 := by
  have := r.vel.isLt
  unfold velampOf
  omega

theorem sampleStep_frame_legal (P : Params) (idle : Bool) (s : State) : (sampleStep P idle s).frame.Legal where
  out0 := (computeSample_range P s.regs).1
  out1 := (computeSample_range P s.regs).2
  velamp := velampOf_le s.regs
  silent hactive := by
    have hactive : s.regs.active = false := hactive
    simp [sampleStep, computeSample, hactive]

/-! ### Each command keeps the registers legal -/

theorem Regs.reset_legal : Regs.reset.Legal where
  waves := by decide
  noError := by decide
  latched := by decide
  note := by decide
  assigned := by decide
  sounding := by decide
  gated := by decide
  bend := by decide
  bendrange := by decide
  ratio := by decide
  modidx := by decide
  fb := by decide
  vbdepth := by decide
  asym := by decide
  pweff := by decide
  prev := by decide
  nds := by decide

theorem latchError_keeps_legal (e : CmdError) (w : Word) (s : State) (h : s.regs.Legal) :
    (latchError e w s).regs.Legal := by
  obtain ⟨_, heq⟩ | ⟨_, heq⟩ := latchError_cases e w s
  · rwa [heq]
  · rw [heq]
    exact { h with noError := nofun, latched := fun _ => errorCode_range e }

theorem clearError_keeps_legal {s : State} (h : s.regs.Legal) : (clearError s).regs.Legal :=
  { h with noError := fun _ => ⟨rfl, rfl⟩, latched := nofun }

theorem Regs.Legal.restart {r : Regs} (h : r.Legal) (smask : BitVec 4) (pmask : BitVec 2) :
    (r.restart smask pmask).Legal :=
  { h with
    prev := fun c => by
      rw [Regs.restart_prev_get]
      split
      · decide
      · exact h.prev c }

/-- A pulse width that NOTE_ON latches survives its storage in 16 bits (R472). -/
theorem pwLatch_get_toNat (r : Regs) (side : Bool) (note vel : BitVec 7) (o : Osc) :
    (((pwLatch r side note vel).get o).toNat : Int) = latchedWidth r side note vel o := by
  have hget : (pwLatch r side note vel).get o = BitVec.ofInt 16 (latchedWidth r side note vel o) := by
    fin_cases o <;> rfl
  obtain ⟨hlo, hhi⟩ : 656 ≤ latchedWidth r side note vel o ∧ latchedWidth r side note vel o ≤ 64880 :=
    clamp_bounds (by decide)
  rw [hget, toNat_ofInt_of_range (by omega) (by omega)]

/-- A clamped unsigned register of a width that holds its bounds stays within them (R493). -/
theorem toNat_ofInt_stored_range {w : Nat} {row : WriteRow} {lo hi : Nat}
    (hbounds : row.bounds = some ((lo : Int), (hi : Int))) (hle : lo ≤ hi) (hhi : hi < 2 ^ w) (data : BitVec 20) :
    lo ≤ (BitVec.ofInt w (row.stored data)).toNat ∧ (BitVec.ofInt w (row.stored data)).toNat ≤ hi := by
  have hstored := stored_bounds hbounds (by exact_mod_cast hle) data
  have hwidth : (hi : Int) < 2 ^ w := by exact_mod_cast hhi
  have hvalue := toNat_ofInt_of_range (w := w) (v := row.stored data) (by omega) (by omega)
  omega

/-- A gain, clamped to 1.0, is at most 32768 in its 16 bits (R9, R493). -/
theorem gain_stored_le (data : BitVec 20) :
    (BitVec.ofInt 16 (WriteRow.stored ⟨16, false, some (0, Config.gainOne)⟩ data)).toNat ≤ 32768 :=
  (toNat_ofInt_stored_range (lo := 0) rfl (by decide) (by decide) data).2

/-- An accepted WREG of `reg` leaves the registers legal (R491 to R494). -/
theorem Regs.Legal.write {r : Regs} (h : r.Legal) {reg : Reg} {row : WriteRow} {data : BitVec 20}
    (hrow : writeRow reg = some row) (hctrl : reg = .ctrl → illegalCtrl (data.setWidth 10) = false) :
    (r.write reg (row.stored data)).Legal := by
  cases reg with
  | ctrl =>
    cases hrow
    have hdata : BitVec.ofInt 10 (data.toNat : Int) = data.setWidth 10 := by simp
    exact { h with waves := (congrArg illegalCtrl hdata).trans (hctrl rfl) }
  | bendrange =>
    cases hrow
    exact { h with bendrange := (toNat_ofInt_stored_range (lo := 0) rfl (by decide) (by decide) data).2 }
  | ratio =>
    cases hrow
    exact { h with ratio := toNat_ofInt_stored_range rfl (by decide) (by decide) data }
  | modidx =>
    cases hrow
    exact { h with modidx := (toNat_ofInt_stored_range (lo := 0) rfl (by decide) (by decide) data).2 }
  | fb =>
    cases hrow
    exact { h with fb := toInt_ofInt_range (stored_bounds rfl (by decide) data) (by decide) (by decide) }
  | vbdepth =>
    cases hrow
    exact { h with vbdepth := gain_stored_le data }
  | asym c =>
    cases hrow
    refine { h with asym := fun c' => ?_ }
    show ((r.asym.set c _).get c').toNat ≤ 32768
    rw [Two.get_set]
    split
    · exact gain_stored_le data
    · exact h.asym c'
  | nds n =>
    cases hrow
    refine { h with nds := fun m => ?_ }
    rw [Regs.ndsAt_write]
    split
    · exact gain_stored_le data
    · exact h.nds m
  | pwb side o => cases side <;> exact { h with }
  | pwkt | pwref | pwvel | detune _ => exact { h with }
  | _ => cases hrow

/-- WREG leaves the registers legal, whatever its checks answer (R490). -/
theorem writeRegister_keeps_legal (index : BitVec 8) (data : BitVec 20) {s : State} (h : s.regs.Legal) :
    (writeRegister index data s).regs.Legal := by
  obtain ⟨e, heq⟩ | ⟨_, heq⟩ | ⟨_, heq⟩ | ⟨reg, row, _, hrow, _, hctrl, heq⟩ := writeRegister_cases index data s
  · rw [heq]
    exact latchError_keeps_legal e _ s h
  · rw [heq]
    exact clearError_keeps_legal h
  · rwa [heq]
  · rw [heq]
    exact h.write hrow hctrl

/-- A note operand, 0 to 127, is not negative in VOICE.NOTE (R105). -/
theorem noteOperand_toInt (note : BitVec 7) : (note.setWidth 8).toInt = note.toNat := by
  have := note.isLt
  rw [BitVec.toInt_eq_toNat_cond, BitVec.toNat_setWidth]
  split <;> omega

theorem soundNote_keeps_legal {side : Bool} {note vel : BitVec 7} (hvel : vel ≠ 0) {s : State} (h : s.regs.Legal) :
    (soundNote side note vel s).regs.Legal := by
  have hnote := noteOperand_toInt note
  have hassigned : Regs.Legal
      { s.regs with
        note := note.setWidth 8, vel := vel, side := side, gate := true, active := true
        pweff := pwLatch s.regs side note vel } :=
    { h with
      note := by simp only [hnote]; omega
      assigned := by simp only [hnote]; exact iff_of_false (by omega) hvel
      sounding := fun _ => by simp only [hnote]; omega
      gated := fun _ => rfl
      pweff := fun o => by
        have hwidth : 656 ≤ latchedWidth s.regs side note vel o ∧ latchedWidth s.regs side note vel o ≤ 64880 :=
          clamp_bounds (by decide)
        have hvalue := pwLatch_get_toNat s.regs side note vel o
        simp only
        omega }
  unfold soundNote
  simp only [State.withRegs_regs]
  split
  · exact hassigned.restart 0xF 0x3
  · exact hassigned

theorem noteOffAction_keeps_legal (note : BitVec 7) {s : State} (h : s.regs.Legal) :
    (noteOffAction note s).regs.Legal := by
  rw [noteOffAction_eq]
  exact { h with gated := fun hgate => h.gated (Bool.and_eq_true_iff.mp hgate).1 }

/-- Every command keeps the registers legal. -/
theorem exec_keeps_legal (i : Instr) (s t : State) (h : s.regs.Legal) (hexec : exec i s = .next t) :
    t.regs.Legal := by
  cases i with
  | nop =>
    cases hexec
    exact h
  | noteOn side note vel =>
    cases hexec
    split
    · exact noteOffAction_keeps_legal note h
    · exact soundNote_keeps_legal ‹_› h
  | noteOff note =>
    cases hexec
    exact noteOffAction_keeps_legal note h
  | bend bval =>
    cases hexec
    exact { h with bend := toInt_ofInt_range (clamp_bounds (by decide)) (by decide) (by decide) }
  | wreg index data =>
    cases hexec
    exact writeRegister_keeps_legal index data h
  | phrst pmask smask =>
    cases hexec
    exact h.restart smask pmask
  | sreset =>
    cases hexec
    exact Regs.reset_legal

/-- A sample step keeps the registers legal: it writes phases, Q1.15 feedback values and a falling ACTIVE (R440). -/
theorem sampleStep_keeps_legal (P : Params) (idle : Bool) (s : State) (h : s.regs.Legal) :
    (sampleStep P idle s).regs.Legal := by
  have hprev : (sampleStep P idle s).regs.prev = (computeSample P s.regs).regs.prev := by
    simp [sampleStep, endRelease_eq]
  obtain ⟨phase, prev, hregs⟩ := sampleStep_regs P idle s
  rw [hregs] at hprev ⊢
  exact
    { h with
      sounding := fun hactive => h.sounding (Bool.and_eq_true_iff.mp hactive).1
      gated := fun hgate => Bool.and_eq_true_iff.mpr ⟨h.gated hgate, Bool.or_eq_true_iff.mpr (.inl hgate)⟩
      prev := by
        simp only at hprev ⊢
        rw [hprev]
        exact computeSample_prev_range P h.prev }

/-- The drain leaves the queue empty or as it was, and only registers else (R204, R440). -/
theorem atBoundary_keeps {s u : State} (h : atBoundary s = .next u) :
    (u.q = [] ∨ u.q = s.q) ∧ u.blkpos = s.blkpos := by
  obtain ⟨_, r, heq⟩ | ⟨_, heq⟩ := atBoundary_cases s
  · rw [heq] at h
    cases h
    exact ⟨.inl rfl, rfl⟩
  · rw [heq] at h
    cases h
    exact ⟨.inr rfl, rfl⟩

/-- Settles O11: every action keeps the registers legal, by the induction over drains and samples; the queue, the block
position and the frame follow from what one action is. -/
theorem stepKeepsLegalState : Obligations.StepKeepsLegalState := by
  intro s t hs h
  have hregs : t.regs.Legal :=
    step_regs_induction (p := Regs.Legal) exec_keeps_legal latchError_keeps_legal sampleStep_keeps_legal hs.regs h
  obtain ⟨_, _, _, idle, u, hu, rfl⟩ | ⟨w, rest, hready, rfl⟩ | ⟨_, _, rfl⟩ := step_eq_next_cases h
  · obtain ⟨hq, -⟩ := atBoundary_keeps hu
    refine ⟨hregs, ?_, Nat.mod_lt _ (Nat.succ_pos _), sampleStep_frame_legal _ _ _⟩
    obtain hq | hq := hq
    · simp [hq]
    · simpa [hq] using hs.queue
  · refine ⟨hregs, ?_, hs.blkpos, hs.frame⟩
    simpa [cmdReady] using hready
  · exact ⟨hregs, hs.queue, hs.blkpos, hs.frame⟩

/-! ### What a command writes of the voice -/

/-- BEND and the voice fields are the same. -/
structure KeepsVoice (r r' : Regs) : Prop where
  bend : r'.bend = r.bend
  note : r'.note = r.note
  vel : r'.vel = r.vel
  side : r'.side = r.side
  gate : r'.gate = r.gate
  active : r'.active = r.active

theorem KeepsVoice.refl (r : Regs) : KeepsVoice r r := ⟨rfl, rfl, rfl, rfl, rfl, rfl⟩

theorem latchError_keepsVoice (e : CmdError) (w : Word) (s : State) : KeepsVoice s.regs (latchError e w s).regs := by
  obtain ⟨_, heq⟩ | ⟨_, heq⟩ := latchError_cases e w s <;> rw [heq] <;> constructor <;> rfl

theorem Regs.write_keepsVoice (r : Regs) (reg : Reg) (v : Int) : KeepsVoice r (r.write reg v) := by
  cases reg with
  | pwb side o => cases side <;> constructor <;> rfl
  | _ => constructor <;> rfl

/-- A WREG writes neither BEND nor a voice field (R496). -/
theorem writeRegister_keepsVoice (index : BitVec 8) (data : BitVec 20) (s : State) :
    KeepsVoice s.regs (writeRegister index data s).regs := by
  obtain ⟨e, heq⟩ | ⟨_, heq⟩ | ⟨_, heq⟩ | ⟨reg, row, _, _, _, _, heq⟩ := writeRegister_cases index data s
  · rw [heq]
    exact latchError_keepsVoice e _ s
  · rw [heq]
    exact ⟨rfl, rfl, rfl, rfl, rfl, rfl⟩
  · rw [heq]
    exact .refl _
  · rw [heq]
    exact s.regs.write_keepsVoice reg _

/-- What a sounding NOTE_ON leaves: the operands, both voice bits, the latched widths, and with NRST = 1 phases and
feedback values of 0 (R470). -/
theorem soundNote_eq (side : Bool) (note vel : BitVec 7) (s : State) :
    soundNote side note vel s = s.withRegs
      { s.regs with
        note := note.setWidth 8, vel := vel, side := side, gate := true, active := true
        pweff := pwLatch s.regs side note vel
        phase := if s.regs.nrst then ⟨0, 0, 0, 0⟩ else s.regs.phase
        prev := if s.regs.nrst then ⟨0, 0⟩ else s.regs.prev } := by
  unfold soundNote
  cases s.regs.nrst <;> rfl

/-- All that a command can do to BEND and the voice: nothing; a reset; a write of BEND; a sounding note; or a note-off,
which can only lower GATE. -/
theorem exec_voice_cases {i : Instr} {s t : State} (h : exec i s = .next t) :
    KeepsVoice s.regs t.regs ∨
    (i = .sreset ∧ t.regs = Regs.reset) ∨
    (∃ bval, i = .bend bval ∧ KeepsVoice { s.regs with bend := t.regs.bend } t.regs) ∨
    (∃ side note vel, i = .noteOn side note vel ∧ vel ≠ 0 ∧
      t.regs.bend = s.regs.bend ∧ t.regs.gate = true ∧ t.regs.active = true) ∨
    (((∃ side note, i = .noteOn side note 0) ∨ ∃ note, i = .noteOff note) ∧
      KeepsVoice { s.regs with gate := t.regs.gate } t.regs ∧ (t.regs.gate = true → s.regs.gate = true)) := by
  have hoff (note : BitVec 7) : KeepsVoice { s.regs with gate := (noteOffAction note s).regs.gate }
        (noteOffAction note s).regs ∧ ((noteOffAction note s).regs.gate = true → s.regs.gate = true) := by
    rw [noteOffAction_eq]
    exact ⟨⟨rfl, rfl, rfl, rfl, rfl, rfl⟩, fun hgate => (Bool.and_eq_true_iff.mp hgate).1⟩
  cases i with
  | nop =>
    cases h
    exact .inl (.refl _)
  | noteOn side note vel =>
    by_cases hvel : vel = 0
    · subst hvel
      cases h
      exact .inr (.inr (.inr (.inr ⟨.inl ⟨side, note, rfl⟩, hoff note⟩)))
    · simp only [exec, execNoteOn, if_neg hvel, soundNote_eq] at h
      cases h
      exact .inr (.inr (.inr (.inl ⟨side, note, vel, rfl, hvel, rfl, rfl, rfl⟩)))
  | noteOff note =>
    cases h
    exact .inr (.inr (.inr (.inr ⟨.inr ⟨note, rfl⟩, hoff note⟩)))
  | bend bval =>
    cases h
    exact .inr (.inr (.inl ⟨bval, rfl, rfl, rfl, rfl, rfl, rfl, rfl⟩))
  | wreg index data =>
    cases h
    exact .inl (writeRegister_keepsVoice index data s)
  | phrst pmask smask =>
    cases h
    exact .inl ⟨rfl, rfl, rfl, rfl, rfl, rfl⟩
  | sreset =>
    cases h
    exact .inr (.inl ⟨rfl, rfl⟩)

/-- Settles O52, from what each command can do to the voice. -/
theorem voiceStateWriters : Obligations.VoiceStateWriters := by
  intro i s t h
  obtain hk | ⟨hi, -⟩ | ⟨bval, hi, hk⟩ | ⟨side, note, vel, hi, hvel, hbend, -⟩ | ⟨hi, hk, -⟩ := exec_voice_cases h
  · refine ⟨fun hne => absurd hk.bend hne, fun hne => ?_, fun hne => absurd hk.gate hne⟩
    simp [hk.note, hk.vel, hk.side, hk.active] at hne
  · exact ⟨fun _ => .inl hi, fun _ => .inl hi, fun _ => .inl hi⟩
  · refine ⟨fun _ => .inr ⟨bval, hi⟩, fun hne => ?_, fun hne => absurd hk.gate hne⟩
    simp [hk.note, hk.vel, hk.side, hk.active] at hne
  · exact ⟨fun hne => absurd hbend hne, fun _ => .inr ⟨side, note, vel, hi, hvel⟩,
      fun _ => .inr (.inl ⟨side, note, vel, hi⟩)⟩
  · refine ⟨fun hne => absurd hk.bend hne, fun hne => ?_, fun _ => ?_⟩
    · simp [hk.note, hk.vel, hk.side, hk.active] at hne
    · obtain ⟨side, note, hi⟩ | hi := hi
      · exact .inr (.inl ⟨side, note, 0, hi⟩)
      · exact .inr (.inr hi)

/-- R106: GATE is 0 while ACTIVE is 0. -/
def GateOnlyWhileActive (r : Regs) : Prop := r.active = false → r.gate = false

theorem KeepsVoice.gateOnlyWhileActive {r r' : Regs} (hk : KeepsVoice r r') (h : GateOnlyWhileActive r) :
    GateOnlyWhileActive r' := by
  unfold GateOnlyWhileActive
  rwa [hk.active, hk.gate]

theorem exec_keeps_gateOnlyWhileActive (i : Instr) (s t : State) (hs : GateOnlyWhileActive s.regs)
    (h : exec i s = .next t) : GateOnlyWhileActive t.regs := by
  obtain hk | ⟨-, hreset⟩ | ⟨_, -, hk⟩ | ⟨_, _, _, -, -, -, -, hactive⟩ | ⟨-, hk, hlower⟩ := exec_voice_cases h
  · exact hk.gateOnlyWhileActive hs
  · rw [hreset]
    exact fun _ => rfl
  · exact hk.gateOnlyWhileActive hs
  · exact fun hinactive => absurd hactive (by simp [hinactive])
  · intro hinactive
    have hgate : s.regs.gate = false := hs (hk.active.symm.trans hinactive)
    cases hg : t.regs.gate with
    | false => rfl
    | true => exact absurd (hlower hg) (by simp [hgate])

/-- A sample lowers ACTIVE only while GATE is 0 (R448). -/
theorem sampleStep_keeps_gateOnlyWhileActive (P : Params) (idle : Bool) (s : State)
    (hs : GateOnlyWhileActive s.regs) : GateOnlyWhileActive (sampleStep P idle s).regs := by
  obtain ⟨phase, prev, hregs⟩ := sampleStep_regs P idle s
  rw [hregs]
  intro hinactive
  obtain hactive | hgate := Bool.and_eq_false_iff.mp hinactive
  · exact hs hactive
  · exact (Bool.or_eq_false_iff.mp hgate).1

/-- Settles O13, by the induction over drains and samples. -/
theorem stepKeepsGateOnlyWhileActive : Obligations.StepKeepsGateOnlyWhileActive := by
  intro s t hs h
  refine step_regs_induction (p := GateOnlyWhileActive) exec_keeps_gateOnlyWhileActive ?_
    sampleStep_keeps_gateOnlyWhileActive hs h
  exact fun e w s => (latchError_keepsVoice e w s).gateOnlyWhileActive

/-! ### A sounding NOTE_ON -/

/-- VOICE as a number (R105). -/
theorem voiceWord_toNat (r : Regs) :
    (voiceWord r).toNat = r.note.toNat + r.vel.toNat * 2 ^ 8 + r.gate.toNat * 2 ^ 16 + r.active.toNat * 2 ^ 17
      + r.side.toNat * 2 ^ 18 := by
  have := r.note.isLt; have := r.vel.isLt
  have := r.gate.toNat_le; have := r.active.toNat_le; have := r.side.toNat_le
  rw [voiceWord, BitVec.toNat_setWidth]
  simp only [toNat_append_eq, BitVec.toNat_ofBool]
  simp only [BitVec.toNat_ofNat]
  omega

/-- What a sounding NOTE_ON may change on the read port (R470). -/
theorem soundNote_changesOnly (side : Bool) (note vel : BitVec 7) (s : State) :
    ChangesOnly (noteOnChanges s.regs.nrst) s (soundNote side note vel s) := by
  rw [soundNote_eq]
  refine ⟨fun P reg hreg => ?_, ⟨rfl, rfl, rfl, rfl, rfl, rfl⟩⟩
  cases reg with
  | phase n => simp_all [noteOnChanges, view]
  | prev c => simp_all [noteOnChanges, view]
  | voice | pweff _ | ftw _ | velamp => cases hreg
  | _ => rfl

/-- Settles O36, from what a sounding NOTE_ON leaves. -/
theorem noteOnSounds : Obligations.NoteOnSounds := by
  intro side note vel s hvel
  refine ⟨soundNote side note vel s, by simp only [exec, execNoteOn, if_neg hvel], ?_⟩
  have hframe := soundNote_changesOnly side note vel s
  rw [soundNote_eq] at hframe ⊢
  refine ⟨noteOperand_toInt note, rfl, rfl, rfl, rfl, fun P => ?_, fun o => ?_, fun hnrst => ?_, hframe⟩
  · have := note.isLt
    simp only [view, voiceWord_toNat, State.withRegs_regs, BitVec.toNat_setWidth, Bool.toNat_true]
    omega
  · rw [State.withRegs_regs, pwLatch_get_toNat]
    exact clamp_eq_max_min (by decide)
  · simp only [State.withRegs_regs, hnrst, if_true]
    decide

/-! ### The latched error -/

/-- STATUS as a number, with an error latched (R103). -/
theorem statusWord_toNat {r : Regs} (h : r.err = true) : (statusWord r).toNat = 1 + 2 * r.errcode.toNat := by
  have := r.errcode.isLt
  rw [statusWord, BitVec.toNat_setWidth, toNat_append_eq, BitVec.toNat_ofBool, h, Bool.toNat_true]
  omega

/-- A raised error where none was latched: ERRCMD is the word and STATUS reads as ERR with the code (R603). -/
theorem latchError_reads {e : CmdError} {w : Word} {s : State} (h : s.regs.err = false) :
    (latchError e w s).regs.errcmd = w ∧
      ∀ P, (view P (latchError e w s) .status).toNat = 1 + 2 * (errorCode e).toNat := by
  rw [latchError_of_clear h]
  exact ⟨rfl, fun P => statusWord_toNat rfl⟩

/-- The number of a decode error, by the opcode (R306, R601). -/
theorem decode_error_number {w : Word} {e : CmdError} (h : decode w = .error e) :
    (errorCode e).toNat = if 7 ≤ w.toNat / 2 ^ 28 then 1 else 2 := by
  unfold decode at h
  rw [opcodeOf_eq] at h
  split at h
  · cases h
    rw [if_pos ‹_›]
    rfl
  · rw [if_neg ‹_›]
    split at h
    · cases h
      rfl
    · cases h

/-! ### WREG, one equation per kind of index (R490, R495, R496) -/

theorem writeRegister_of_unmapped {index : BitVec 8} (h : regOf index = none) (data : BitVec 20) (s : State) :
    writeRegister index data s = latchError .badRegister (encode (.wreg index data)) s := by
  simp only [writeRegister, h, wregWord]

theorem writeRegister_of_status {index : BitVec 8} (h : regOf index = some .status) (data : BitVec 20) (s : State) :
    writeRegister index data s = statusWrite (encode (.wreg index data)) data s := by
  simp only [writeRegister, h, wregWord]

theorem writeRegister_of_readOnly {index : BitVec 8} {reg : Reg} (h : regOf index = some reg)
    (hstatus : reg ≠ .status) (hrow : writeRow reg = none) (data : BitVec 20) (s : State) :
    writeRegister index data s = latchError .readOnly (encode (.wreg index data)) s := by
  unfold writeRegister
  split <;> simp_all [wregWord]

/-- STATUS has no row of R493. -/
theorem ne_status_of_writeRow {reg : Reg} {row : WriteRow} (h : writeRow reg = some row) : reg ≠ .status := by
  rintro rfl
  cases h

theorem writeRegister_of_writable {index : BitVec 8} {reg : Reg} {row : WriteRow} (h : regOf index = some reg)
    (hrow : writeRow reg = some row) (data : BitVec 20) (s : State) :
    writeRegister index data s = writeChecked (encode (.wreg index data)) reg row data s := by
  have hstatus := ne_status_of_writeRow hrow
  unfold writeRegister
  split <;> simp_all [wregWord]

/-- The read-only indices of R496 and the register table: an index of a register without a row, STATUS apart. -/
theorem readOnly_index {index : BitVec 8} {reg : Reg} (h : regOf index = some reg) (hstatus : reg ≠ .status)
    (hrow : writeRow reg = none) :
    index.toNat = 0x02 ∨ index.toNat = 0x03 ∨ index.toNat = 0x04 ∨ index.toNat = 0x13 ∨ index.toNat = 0x14 ∨
      (0x1C ≤ index.toNat ∧ index.toNat ≤ 0x29) := by
  have hagrees := indexAgrees_all ⟨index.toNat, index.isLt⟩
  simp only [indexAgrees, BitVec.ofNat_toNat, BitVec.setWidth_eq, h] at hagrees
  simp_all [or_assoc]

/-- The indices and widths of R493 and the register table: an index of a register with a row. -/
theorem writable_index {index : BitVec 8} {reg : Reg} {row : WriteRow} (h : regOf index = some reg)
    (hrow : writeRow reg = some row) :
    index.toNat ≠ 1 ∧ wregIndexAccepted index.toNat = true ∧ wregWidth index.toNat = row.width := by
  have hagrees := indexAgrees_all ⟨index.toNat, index.isLt⟩
  have hstatus := ne_status_of_writeRow hrow
  simp only [indexAgrees, BitVec.ofNat_toNat, BitVec.setWidth_eq, h] at hagrees
  simp_all

/-- A WREG that passes the machine's own checks is well-formed (R490, R494). -/
theorem wellFormed_of_writable {index : BitVec 8} {data : BitVec 20} {reg : Reg} {row : WriteRow}
    (h : regOf index = some reg) (hrow : writeRow reg = some row) (hfits : row.fits data = true)
    (hctrl : reg = .ctrl → illegalCtrl (data.setWidth 10) = false) :
    (Instr.wreg index data).wellFormed = true := by
  obtain ⟨-, haccepted, hwidth⟩ := writable_index h hrow
  have hwaves : index.toNat = 0 → wavesAccepted data.toNat = true := by
    intro hzero
    have hreg := (regOf_ctrl_iff index).mpr (BitVec.eq_of_toNat_eq hzero)
    have hlegal := hctrl (Option.some.inj (h.symm.trans hreg))
    simpa [illegalCtrl_eq] using hlegal
  have hdata : data.toNat < 2 ^ row.width := by simpa [WriteRow.fits] using hfits
  by_cases hzero : index.toNat = 0
  · simp [Instr.wellFormed, haccepted, hwidth, hdata, hwaves hzero]
  · simp [Instr.wellFormed, haccepted, hwidth, hdata, hzero]

/-- A STATUS write is accepted exactly with DATA 0 or 1 (R495). -/
theorem statusData_reserved_iff (data : BitVec 20) : data &&& 0xFFFFE ≠ 0 ↔ 2 ≤ data.toNat := by
  have hmask : data &&& (0xFFFFE : BitVec 20) = (data >>> 1) <<< 1 := by
    apply BitVec.eq_of_getLsbD_eq
    intro j hj
    interval_cases j <;> simp
  have hdata := data.isLt
  have hzero : (0 : BitVec 20).toNat = 0 := rfl
  rw [hmask, ne_eq, BitVec.toNat_eq, BitVec.toNat_shiftLeft, BitVec.toNat_ushiftRight, Nat.shiftLeft_eq,
    Nat.shiftRight_eq_div_pow]
  omega

/-- The number of a refused WREG's cause, from its index and DATA as numbers (R601, R602). -/
def wregErrorNumber (i d : Nat) : Nat :=
  if (0x15 ≤ i ∧ i ≤ 0x17) ∨ (0x2A ≤ i ∧ i ≤ 0x7F) then 3
  else if i = 0x02 ∨ i = 0x03 ∨ i = 0x04 ∨ i = 0x13 ∨ i = 0x14 ∨ (0x1C ≤ i ∧ i ≤ 0x29) then 4
  else if 2 ^ wregWidth i ≤ d then 2
  else 5

/-- At an accepted index the cause is a matter of DATA alone. -/
theorem wregErrorNumber_of_accepted {i : Nat} (h : wregIndexAccepted i = true) (d : Nat) :
    wregErrorNumber i d = if 2 ^ wregWidth i ≤ d then 2 else 5 := by
  simp only [wregIndexAccepted, Bool.or_eq_true, Bool.and_eq_true, decide_eq_true_eq] at h
  rw [wregErrorNumber, if_neg (by omega), if_neg (by omega)]

/-- A WREG that is not accepted raises the error of its cause and does nothing else (R490, R601, R602). -/
theorem writeRegister_of_illFormed {index : BitVec 8} {data : BitVec 20}
    (hill : (Instr.wreg index data).wellFormed = false) (s : State) :
    ∃ e, (errorCode e).toNat = wregErrorNumber index.toNat data.toNat ∧
      writeRegister index data s = latchError e (encode (.wreg index data)) s := by
  cases hreg : regOf index with
  | none =>
    refine ⟨.badRegister, ?_, writeRegister_of_unmapped hreg data s⟩
    rw [wregErrorNumber, if_pos ((regOf_none_iff index).mp hreg)]
    rfl
  | some reg =>
    by_cases hstatus : reg = .status
    · subst hstatus
      have hindex : index = 0x01 := (regOf_status_iff index).mp hreg
      subst hindex
      have hdata : 1 < data.toNat := by
        simpa [Instr.wellFormed, wregIndexAccepted, wregWidth] using hill
      refine ⟨.reservedBits, ?_, ?_⟩
      · have hwidth : 2 ^ wregWidth (1 : BitVec 8).toNat ≤ data.toNat := hdata
        rw [wregErrorNumber_of_accepted (by decide), if_pos hwidth]
        rfl
      · rw [writeRegister_of_status hreg, statusWrite, if_pos ((statusData_reserved_iff data).mpr hdata)]
    · cases hrow : writeRow reg with
      | none =>
        have hro := readOnly_index hreg hstatus hrow
        refine ⟨.readOnly, ?_, writeRegister_of_readOnly hreg hstatus hrow data s⟩
        rw [wregErrorNumber, if_neg (by omega), if_pos hro]
        rfl
      | some row =>
        obtain ⟨-, haccepted, hwidth⟩ := writable_index hreg hrow
        rw [writeRegister_of_writable hreg hrow, wregErrorNumber_of_accepted haccepted, hwidth]
        obtain ⟨hfits, heq⟩ | ⟨hfits, _, _, heq⟩ | ⟨hfits, hctrl, heq⟩ :=
          writeChecked_cases (encode (.wreg index data)) reg row data s
        · refine ⟨.reservedBits, ?_, heq⟩
          rw [if_pos (by simpa [WriteRow.fits] using hfits)]
          rfl
        · refine ⟨.illegalValue, ?_, heq⟩
          rw [if_neg (by simpa [WriteRow.fits] using hfits)]
          rfl
        · rw [wellFormed_of_writable hreg hrow hfits hctrl] at hill
          cases hill

/-- Settles O45: `latchError` keeps the first error, and a word that does not decode or a WREG that is not accepted
answers through it. -/
theorem firstErrorIsKept : Obligations.FirstErrorIsKept := by
  refine ⟨fun e w s => ⟨latchError_of_latched, fun h => ?_⟩, fun w e s hdecode => ?_, fun index data s hill => ?_⟩
  · rw [latchError_of_clear h]
    cases e <;> rfl
  · have happly : applyWord w s = .next (latchError e w s) := by simp only [applyWord, hdecode]
    refine ⟨fun h => by rw [happly, latchError_of_latched h], fun h => ⟨_, happly, ?_⟩⟩
    obtain ⟨hword, hstatus⟩ := latchError_reads h
    refine ⟨hword, fun P => ?_⟩
    rw [hstatus, ← decode_error_number hdecode]
  · obtain ⟨e, hcode, heq⟩ := writeRegister_of_illFormed hill s
    have hexec : exec (.wreg index data) s = .next (latchError e (encode (.wreg index data)) s) := by
      rw [← heq]
      rfl
    refine ⟨fun h => by rw [hexec, latchError_of_latched h], fun h => ⟨_, hexec, ?_⟩⟩
    obtain ⟨hword, hstatus⟩ := latchError_reads h
    refine ⟨hword, fun P => ?_⟩
    rw [hstatus, hcode]
    rfl

/-! ### The drain, the output ports and the read port -/

/-- Settles O10: what a command and the drain leave, and the count of the sample step. -/
theorem blockPositionCountsSteps : Obligations.BlockPositionCountsSteps := by
  refine ⟨fun P idle s t h => ?_, fun i s t h => ?_⟩
  · obtain ⟨u, hu, hstep⟩ := engineStep_next P idle s
    rw [hstep] at h
    cases h
    rw [sampleStep_blkpos, (atBoundary_keeps hu).2]
  · obtain ⟨r, hr⟩ := exec_next i s
    rw [hr] at h
    cases h
    exact ⟨rfl, rfl, rfl, rfl, rfl, rfl⟩

/-- From the state that the drain leaves, a step is its sample (R440). -/
theorem engineStep_of_atBoundary {s u : State} (h : atBoundary s = .next u) (P : Params) (idle : Bool) :
    engineStep P idle s = .next (sampleStep P idle u) := by
  simp [engineStep, h]

/-- Settles O18: the frame of the sample taken from the state that the drain leaves. -/
theorem outputPortsFollowDrain : Obligations.OutputPortsFollowDrain :=
  fun P idle _ _ h => ⟨_, engineStep_of_atBoundary h P idle, rfl, rfl, rfl⟩

/-- The queue is visible in QLEVEL alone (R123). -/
theorem view_hostPush (P : Params) (w : Word) (s : State) {reg : Reg} (h : reg ≠ .qlevel) :
    view P (hostPush w s) reg = view P s reg := by
  cases reg with
  | qlevel => exact absurd rfl h
  | _ => rfl

/-- QLEVEL is the register of index 0x27 alone. -/
theorem regOf_qlevel_iff (index : BitVec 8) : regOf index = some .qlevel ↔ index = 0x27 := by
  have hall : ∀ i : Fin 256, regOf (BitVec.ofNat 8 i) = some .qlevel ↔ i.val = 0x27 := by decide +kernel
  simpa [BitVec.toNat_eq] using hall ⟨index.toNat, index.isLt⟩

/-- Settles O57: a push is visible in QLEVEL alone, which counts it. -/
theorem readsDoNotForwardFromQueue : Obligations.ReadsDoNotForwardFromQueue := by
  intro P s w i
  constructor
  · intro hi
    unfold hostRead
    split
    · rename_i reg hreg
      refine view_hostPush P w s ?_
      rintro rfl
      exact hi ((regOf_qlevel_iff i).mp hreg)
    · rfl
  · show BitVec.ofNat 32 (s.q ++ [w]).length = BitVec.ofNat 32 s.q.length + 1
    rw [List.length_append, BitVec.ofNat_add]
    rfl

/-- A signed register of at most 32 bits reads as its signed value (R205). -/
theorem mod32_toInt_of_narrow {w : Nat} (hw : w ≤ 32) (v : BitVec w) : (mod32 v.toInt).toInt = v.toInt := by
  have hlo := BitVec.le_two_mul_toInt (x := v)
  have hhi := BitVec.two_mul_toInt_lt (x := v)
  have hpow : (2 : Int) ^ w ≤ 2 ^ 32 := pow_le_pow_right₀ (by decide) hw
  exact toInt_ofInt_of_range (by omega) (by omega)

/-- Settles O56: the step of a read, the unmapped indices, and the sign extension of each signed register. -/
theorem hostReadHasNoSideEffect : Obligations.HostReadHasNoSideEffect := by
  refine ⟨fun s i rest h => ?_, fun P s i hi => ?_, fun P s => ⟨?_, ?_, ?_, ?_, ?_, ?_, ?_, ?_⟩⟩
  · simp only [step, advance, h, readMove]
    rfl
  · simp only [hostRead, (regOf_none_iff i).mpr hi]
  all_goals exact mod32_toInt_of_narrow (by decide) _

end Sys2Proof.Machine
end

section
/-! SUPPORT. Proofs about the queue and the ports of 20_memory.md: what a word does to the registers, and that doing it
twice is doing it once (O48); the order of the drain (O6); the step at a block boundary and away from it (O5, O8, O9);
and the HOST that waits (O55, O58). -/

namespace Sys2Proof.Machine

/-! ### A command acts on the registers alone, and twice is once -/

/-- `op` is a function of the registers, the rest of the state neither read nor written, and that function done twice is
that function done once (R206). -/
def ActsOnceOnRegs (op : State → State) : Prop :=
  ∃ f : Regs → Regs, (∀ s, op s = s.withRegs (f s.regs)) ∧ ∀ r, f (f r) = f r

theorem ActsOnceOnRegs.idem {op : State → State} (h : ActsOnceOnRegs op) (s : State) : op (op s) = op s := by
  obtain ⟨f, hop, hf⟩ := h
  simp [hop, hf]

theorem id_actsOnceOnRegs : ActsOnceOnRegs fun s => s := ⟨id, fun _ => rfl, fun _ => rfl⟩

theorem latchError_actsOnceOnRegs (e : CmdError) (w : Word) : ActsOnceOnRegs (latchError e w) := by
  refine ⟨fun r => if r.err then r else { r with err := true, errcode := errorCode e, errcmd := w },
    fun s => ?_, fun r => ?_⟩
  · simp only [latchError]
    split <;> rfl
  · by_cases h : r.err = true <;> simp [h]

theorem statusWrite_actsOnceOnRegs (w : Word) (data : BitVec 20) : ActsOnceOnRegs (statusWrite w data) := by
  unfold statusWrite
  split
  · exact latchError_actsOnceOnRegs _ w
  · split
    · exact ⟨fun r => { r with err := false, errcode := 0, errcmd := 0 }, fun _ => rfl, fun _ => rfl⟩
    · exact id_actsOnceOnRegs

@[simp] theorem Two.set_set {α : Type} (t : Two α) (i : Fin 2) (v v' : α) : (t.set i v).set i v' = t.set i v' := by
  fin_cases i <;> rfl

@[simp] theorem Four.set_set {α : Type} (t : Four α) (i : Fin 4) (v v' : α) : (t.set i v).set i v' = t.set i v' := by
  fin_cases i <;> rfl

/-- A stored value overwrites the one stored before. -/
theorem Regs.write_write (r : Regs) (reg : Reg) (v v' : Int) : (r.write reg v).write reg v' = r.write reg v' := by
  cases reg with
  | pwb side o => cases side <;> simp [Regs.write]
  | asym _ | detune _ | nds _ => simp [Regs.write]
  | _ => rfl

theorem writeChecked_actsOnceOnRegs (w : Word) (reg : Reg) (row : WriteRow) (data : BitVec 20) :
    ActsOnceOnRegs (writeChecked w reg row data) := by
  unfold writeChecked
  split
  · exact latchError_actsOnceOnRegs _ w
  · split
    · exact latchError_actsOnceOnRegs _ w
    · exact ⟨fun r => r.write reg (row.stored data), fun _ => rfl, fun r => r.write_write reg _ _⟩

theorem writeRegister_actsOnceOnRegs (index : BitVec 8) (data : BitVec 20) :
    ActsOnceOnRegs (writeRegister index data) := by
  unfold writeRegister
  split
  · exact latchError_actsOnceOnRegs _ _
  · exact statusWrite_actsOnceOnRegs _ data
  · split
    · exact latchError_actsOnceOnRegs _ _
    · exact writeChecked_actsOnceOnRegs _ _ _ data

/-- A second PHRST with the same masks finds nothing left to zero. -/
theorem Regs.restart_restart (r : Regs) (smask : BitVec 4) (pmask : BitVec 2) :
    (r.restart smask pmask).restart smask pmask = r.restart smask pmask := by
  have hmask {w : Nat} (b : Bool) (v : BitVec w) : (if b then 0 else if b then 0 else v) = if b then 0 else v := by
    cases b <;> rfl
  simp only [Regs.restart, hmask]

theorem noteOffAction_actsOnceOnRegs (note : BitVec 7) : ActsOnceOnRegs (noteOffAction note) := by
  refine ⟨fun r => { r with gate := r.gate && !decide (r.note = note.setWidth 8) }, noteOffAction_eq note,
    fun r => ?_⟩
  simp only [Bool.and_assoc, Bool.and_self]

theorem soundNote_actsOnceOnRegs (side : Bool) (note vel : BitVec 7) : ActsOnceOnRegs (soundNote side note vel) := by
  refine ⟨fun r =>
    { r with
      note := note.setWidth 8, vel := vel, side := side, gate := true, active := true
      pweff := pwLatch r side note vel
      phase := if r.nrst then ⟨0, 0, 0, 0⟩ else r.phase
      prev := if r.nrst then ⟨0, 0⟩ else r.prev }, soundNote_eq side note vel, fun r => ?_⟩
  have hnrst : ∀ r' : Regs, r'.ctrl = r.ctrl → r'.nrst = r.nrst := fun r' h => by simp only [Regs.nrst, h]
  simp only [hnrst]
  cases r.nrst <;> rfl

/-- What each command is: an answered operation on the registers, which done twice is done once (R206). -/
theorem exec_actsOnceOnRegs (i : Instr) : ∃ op, (∀ s, exec i s = .next (op s)) ∧ ActsOnceOnRegs op := by
  cases i with
  | nop => exact ⟨_, fun _ => rfl, id_actsOnceOnRegs⟩
  | noteOn side note vel =>
    refine ⟨_, fun _ => rfl, ?_⟩
    split
    · exact noteOffAction_actsOnceOnRegs note
    · exact soundNote_actsOnceOnRegs side note vel
  | noteOff note => exact ⟨_, fun _ => rfl, noteOffAction_actsOnceOnRegs note⟩
  | bend bval => exact ⟨_, fun _ => rfl, fun r => { r with bend := _ }, fun _ => rfl, fun _ => rfl⟩
  | wreg index data => exact ⟨_, fun _ => rfl, writeRegister_actsOnceOnRegs index data⟩
  | phrst pmask smask =>
    exact ⟨_, fun _ => rfl, fun r => r.restart smask pmask, fun _ => rfl, fun r => r.restart_restart smask pmask⟩
  | sreset => exact ⟨_, fun _ => rfl, fun _ => Regs.reset, fun _ => rfl, fun _ => rfl⟩

/-- The same of a word, whether it decodes or raises an error (R306). -/
theorem applyWord_actsOnceOnRegs (w : Word) : ∃ op, (∀ s, applyWord w s = .next (op s)) ∧ ActsOnceOnRegs op := by
  unfold applyWord
  split
  · exact exec_actsOnceOnRegs _
  · exact ⟨_, fun _ => rfl, latchError_actsOnceOnRegs _ w⟩

/-- Settles O48: the operation of a word done twice is that operation done once. -/
theorem applyingTwiceIsApplyingOnce : Obligations.ApplyingTwiceIsApplyingOnce := by
  intro w s t h
  obtain ⟨op, hop, hacts⟩ := applyWord_actsOnceOnRegs w
  rw [hop] at h
  cases h
  rw [hop, hacts.idem]

/-! ### The drain -/

/-- Words in a row answer one function of the registers, whatever the rest of the state is. -/
theorem applyAll_eq_withRegs (ws : List Word) :
    ∃ f : Regs → Regs, ∀ s, applyAll ws s = .next (s.withRegs (f s.regs)) := by
  induction ws with
  | nil => exact ⟨id, fun _ => rfl⟩
  | cons w ws ih =>
    obtain ⟨op, hop, f, hf, -⟩ := applyWord_actsOnceOnRegs w
    obtain ⟨g, hg⟩ := ih
    exact ⟨fun r => g (f r), fun s => by simp [applyAll, hop, hf, hg]⟩

/-- Settles O6: each drain is a function of the registers, and the function of `ws ++ vs` is that of `vs` after that of
`ws`. -/
theorem drainAppliesInPushOrder : Obligations.DrainAppliesInPushOrder := by
  intro ws vs s
  obtain ⟨f, hf⟩ := applyAll_eq_withRegs ws
  obtain ⟨g, hg⟩ := applyAll_eq_withRegs vs
  refine ⟨{ s.withRegs (f s.regs) with q := [] }, { s.withRegs (g (f s.regs)) with q := [] }, ?_, ?_, ?_, rfl⟩
  · simp only [drain, hf, andThen_next]; rfl
  · simp only [drain, hg, andThen_next]; rfl
  · simp only [drain, applyAll_append, hf, hg, andThen_next]; rfl

/-! ### The step away from a block boundary and at it -/

/-- Away from a block boundary a step is its sample alone (R440). -/
theorem engineStep_of_midBlock {s : State} (h : s.blkpos ≠ 0) (P : Params) (idle : Bool) :
    engineStep P idle s = .next (sampleStep P idle s) :=
  engineStep_of_atBoundary (if_neg h) P idle

/-- A sample does not raise ACTIVE (R448). -/
theorem active_of_sampleStep_active {P : Params} {idle : Bool} {s : State}
    (h : (sampleStep P idle s).regs.active = true) : s.regs.active = true := by
  obtain ⟨phase, prev, hregs⟩ := sampleStep_regs P idle s
  rw [hregs] at h
  exact (Bool.and_eq_true_iff.mp h).1

/-- Settles O8: away from a boundary the step is the sample of the state itself. -/
theorem midBlockStepAppliesNothing : Obligations.MidBlockStepAppliesNothing :=
  fun P idle s h =>
    ⟨_, engineStep_of_midBlock h P idle, sampleStep_frame P idle s, active_of_sampleStep_active⟩

/-- At a block boundary a step leaves the queue empty (R204, R440). -/
theorem engineStep_empties_of_boundary {s : State} (h : s.blkpos = 0) (P : Params) (idle : Bool) :
    ∃ u, engineStep P idle s = .next u ∧ u.q = [] := by
  obtain ⟨r, hr⟩ := drain_next s
  have hu : atBoundary s = .next { s.withRegs r with q := [] } := (if_pos h).trans hr
  exact ⟨_, engineStep_of_atBoundary hu P idle, rfl⟩

/-- The steps that remain of a block lead to the boundary with the queue as it was (R208). -/
theorem engineRun_to_boundary {P : Params} {idles : List Bool} {s : State} (hpos : s.blkpos ≠ 0)
    (hlt : s.blkpos < P.block) (hlen : s.blkpos + idles.length = P.block) :
    ∃ t, engineRun P idles s = .next t ∧ t.q = s.q ∧ t.blkpos = 0 := by
  induction idles generalizing s with
  | nil => exact absurd hlen hlt.ne
  | cons idle rest ih =>
    simp only [engineRun, engineStep_of_midBlock hpos, andThen_next]
    rw [List.length_cons] at hlen
    by_cases hlast : s.blkpos + 1 = P.block
    · have hrest : rest = [] := List.eq_nil_of_length_eq_zero (by omega)
      subst hrest
      exact ⟨_, rfl, rfl, by rw [sampleStep_blkpos, hlast, Nat.mod_self]⟩
    · have hnext : (sampleStep P idle s).blkpos = s.blkpos + 1 :=
        Nat.mod_eq_of_lt (by omega)
      exact ih (by omega) (by omega) (by omega)

/-- Settles O9: at a boundary nothing is waited for, elsewhere the rest of the block; then the drain. -/
theorem commandLatencyIsAtMostOneBlock : Obligations.CommandLatencyIsAtMostOneBlock := by
  intro P s idles hlt hlen
  have hrun : ∃ t, engineRun P idles s = .next t ∧ t.q = s.q ∧ t.blkpos = 0 := by
    by_cases hpos : s.blkpos = 0
    · rw [hpos, Nat.sub_zero, Nat.mod_self] at hlen
      cases List.eq_nil_of_length_eq_zero hlen
      exact ⟨s, rfl, rfl, hpos⟩
    · rw [Nat.mod_eq_of_lt (by omega)] at hlen
      exact engineRun_to_boundary hpos hlt (by omega)
  obtain ⟨t, ht, hq, hblk⟩ := hrun
  exact ⟨t, ht, hq, hblk, engineStep_empties_of_boundary hblk P⟩

/-- Where the HOST lets the ENGINE move, the action is a sample step with the script moved on. -/
theorem step_of_engine_turn {s : State} (h : s.script = [] ∨ s.script.head? = some .wait) :
    step s = engineMove { s with script := s.script.tail } := by
  obtain ⟨regs, q, blkpos, frame, rdData, script, draws⟩ := s
  cases script with
  | nil => rfl
  | cons action rest =>
    obtain rfl : action = .wait := by simpa using h
    rfl

/-- At a block boundary with one word queued, the drain performs the command that the word decodes to (R204, R306). -/
theorem atBoundary_of_single {s t : State} {w : Word} {i : Instr} (hblk : s.blkpos = 0) (hq : s.q = [w])
    (hdecode : decode w = .instr i) (hexec : exec i s = .next t) : atBoundary s = .next { t with q := [] } := by
  simp [atBoundary, drain, applyAll, applyWord, hblk, hq, hdecode, hexec]

/-- Settles O5: the ENGINE's move is the sample of the drained state, and that state is the command's with an empty
queue. -/
theorem stepRunsDecodedCommand : Obligations.StepRunsDecodedCommand := by
  refine ⟨fun s w i hturn hblk hq hdecode => ?_, fun s w => ⟨rfl, rfl, ?_⟩⟩
  · obtain ⟨r, hexec⟩ := exec_next i { s with script := s.script.tail, draws := s.draws + 1 }
    have hdrained := atBoundary_of_single (s := { s with script := s.script.tail, draws := s.draws + 1 })
      hblk hq hdecode hexec
    exact ⟨_, hexec, (step_of_engine_turn hturn).trans (engineStep_of_atBoundary hdrained _ _)⟩
  · have hw : BitVec.ofNat 32 (w.toNat % 2 ^ 32) = w := by
      rw [Nat.mod_eq_of_lt w.isLt, BitVec.ofNat_toNat, BitVec.setWidth_eq]
    exact congrArg (fun v => [v]) hw

/-! ### The waiting HOST -/

/-- The drain leaves the script as it is (R204). -/
theorem atBoundary_keeps_script {s u : State} (h : atBoundary s = .next u) : u.script = s.script := by
  obtain ⟨_, r, heq⟩ | ⟨_, heq⟩ := atBoundary_cases s
  · rw [heq] at h
    cases h
    rfl
  · rw [heq] at h
    cases h
    rfl

/-- The ENGINE's move answers, and leaves the script as it is. -/
theorem engineMove_keeps_script (s : State) : ∃ t, engineMove s = .next t ∧ t.script = s.script := by
  obtain ⟨u, hu, hmove⟩ := engineMove_next s
  have hscript : u.script = s.script := atBoundary_keeps_script (s := { s with draws := s.draws + 1 }) hu
  exact ⟨_, hmove, hscript⟩

/-- Settles O55: `cmd_ready` decides between the push and the ENGINE's move, which leaves the script. -/
theorem hostPushAppends : Obligations.HostPushAppends := by
  intro s w rest hscript
  constructor
  · intro hroom
    have hready : cmdReady s = true := decide_eq_true hroom
    simp only [step, advance, hscript, hready, if_true, hostPush]
  · intro hfull
    have hready : cmdReady s = false := decide_eq_false (Nat.not_lt.mpr hfull)
    have hstep : step s = engineMove s := by simp [step, advance, hscript, hready]
    refine ⟨hstep, ?_⟩
    rw [hstep, ← hscript]
    exact engineMove_keeps_script s

/-- Within the queue's capacity, QLEVEL reads as 0 for an empty queue alone (R123). -/
theorem hostRead_qlevel_eq_zero_iff {s : State} (hcap : s.q.length ≤ 64) (P : Params) :
    hostRead P s 0x27 = 0 ↔ s.q = [] := by
  have hread : hostRead P s 0x27 = BitVec.ofNat 32 s.q.length := rfl
  rw [hread, BitVec.toNat_eq, BitVec.toNat_ofNat, Nat.mod_eq_of_lt (by omega)]
  exact List.length_eq_zero_iff

/-- Settles O58: SYNC ends by reading a QLEVEL of 0; otherwise the ENGINE moves and the script stays. -/
theorem syncWaitsForDrain : Obligations.SyncWaitsForDrain := by
  intro s rest hscript hcap
  have hzero := hostRead_qlevel_eq_zero_iff hcap Config.params
  constructor
  · intro hempty
    have hread := hzero.mpr hempty
    have hmoved : hostRead Config.params { s with script := rest } 0x27 = 0 := hread
    simp only [step, advance, hscript, if_pos hread, readMove, hmoved]
  · intro hqueued
    have hstep : step s = engineMove (readMove 0x27 s) := by
      simp only [step, advance, hscript, if_neg (mt hzero.mp hqueued)]
    rw [hstep, ← hscript]
    exact engineMove_keeps_script (readMove 0x27 s)

end Sys2Proof.Machine
end

section
/-! SUPPORT. Proofs about the command words of 30_encoding.md: the reserved bits and the fields as numbers; decoding against
encoding (O1, O2, O4); `Apply` of every word (O3, O35); the commands that raise (O47); and the assembler (O60). -/

namespace Sys2Proof

/-! ### The reserved bits as numbers (R306) -/

/-- The word with ones from bit `lo` up to below bit `hi`. -/
def onesFromTo (lo hi : Nat) : Word := (BitVec.allOnes (hi - lo)).setWidth 32 <<< lo

theorem onesFromTo_getLsbD {lo hi : Nat} (hhi : hi ≤ 32) (j : Nat) :
    (onesFromTo lo hi).getLsbD j = (decide (lo ≤ j) && decide (j < hi)) := by
  simp only [onesFromTo, BitVec.getLsbD_shiftLeft, BitVec.getLsbD_setWidth, BitVec.getLsbD_allOnes]
  rw [Bool.eq_iff_iff]
  simp only [Bool.and_eq_true, Bool.not_eq_true', decide_eq_true_eq, decide_eq_false_iff_not]
  omega

/-- A run of ones meets a word in the bits of the run. -/
theorem and_onesFromTo_eq_zero_iff {lo hi : Nat} (hhi : hi ≤ 32) (w : Word) :
    w &&& onesFromTo lo hi = 0 ↔ w.toNat % 2 ^ hi / 2 ^ lo = 0 := by
  have hbits (j : Nat) : (w &&& onesFromTo lo hi).getLsbD j =
      (decide (lo ≤ j) && (w.toNat % 2 ^ hi / 2 ^ lo).testBit (j - lo)) := by
    rw [BitVec.getLsbD_and, onesFromTo_getLsbD hhi, Nat.testBit_div_two_pow, Nat.testBit_mod_two_pow]
    by_cases hlo : lo ≤ j
    · simp [hlo, BitVec.getLsbD, Bool.and_comm]
    · simp [hlo]
  constructor
  · intro hand
    apply Nat.eq_of_testBit_eq
    intro j
    have hj := hbits (j + lo)
    simpa [hand] using hj.symm
  · intro hdiv
    apply BitVec.eq_of_getLsbD_eq
    intro j _
    simpa [hdiv] using hbits j

/-- The bits that RESV(`op`) selects are 0 in the word with number `n` (R306). -/
def ReservedClear (op n : Nat) : Prop :=
  match op with
  | 1 | 3 => n % 2 ^ 28 / 2 ^ 15 = 0
  | 2 => n % 2 ^ 28 / 2 ^ 14 = 0 ∧ n % 2 ^ 7 = 0
  | 4 => True
  | 5 => n % 2 ^ 28 / 2 ^ 6 = 0
  | _ => n % 2 ^ 28 = 0

theorem and_reservedMask_eq_zero_iff (w : Word) (op : Nat) :
    w &&& reservedMask op = 0 ↔ ReservedClear op w.toNat := by
  have hall : w &&& onesFromTo 0 28 = 0 ↔ w.toNat % 2 ^ 28 = 0 := by
    simpa using and_onesFromTo_eq_zero_iff (lo := 0) (hi := 28) (by decide) w
  have hlow : w &&& onesFromTo 0 7 = 0 ↔ w.toNat % 2 ^ 7 = 0 := by
    simpa using and_onesFromTo_eq_zero_iff (lo := 0) (hi := 7) (by decide) w
  have hfrom (lo : Nat) : w &&& onesFromTo lo 28 = 0 ↔ w.toNat % 2 ^ 28 / 2 ^ lo = 0 :=
    and_onesFromTo_eq_zero_iff (by decide) w
  match op with
  | 0 => exact hall
  | 1 | 3 => exact hfrom 15
  | 2 =>
    have hsplit : reservedMask 2 = onesFromTo 14 28 ||| onesFromTo 0 7 := rfl
    rw [hsplit, BitVec.and_or_distrib_left]
    exact BitVec.or_eq_zero_iff.trans (and_congr (hfrom 14) hlow)
  | 4 => simp [reservedMask, ReservedClear]
  | 5 => exact hfrom 6
  | _ + 6 => exact hall

/-! ### The fields as numbers (R301 to R305) -/

theorem extractLsb'_eq_ofNat (w : Word) (lo len : Nat) :
    w.extractLsb' lo len = BitVec.ofNat len (w.toNat / 2 ^ lo) := by
  simp [BitVec.extractLsb', Nat.shiftRight_eq_div_pow]

theorem fieldsOf_noteOn (w : Word) :
    fieldsOf w 1 =
      .noteOn (w.toNat / 2 ^ 14 % 2 == 1) (BitVec.ofNat 7 (w.toNat / 2 ^ 7)) (BitVec.ofNat 7 w.toNat) := by
  have hside : w.getLsbD 14 = (w.toNat / 2 ^ 14 % 2 == 1) := by
    rw [BitVec.getLsbD, Nat.testBit_eq_decide_div_mod_eq]; rfl
  simp only [fieldsOf, hside, extractLsb'_eq_ofNat, pow_zero, Nat.div_one]

theorem fieldsOf_noteOff (w : Word) : fieldsOf w 2 = .noteOff (BitVec.ofNat 7 (w.toNat / 2 ^ 7)) := by
  simp only [fieldsOf, extractLsb'_eq_ofNat]

theorem fieldsOf_bend (w : Word) : fieldsOf w 3 = .bend (BitVec.ofNat 15 w.toNat) := by
  simp only [fieldsOf, extractLsb'_eq_ofNat, pow_zero, Nat.div_one]

theorem fieldsOf_wreg (w : Word) :
    fieldsOf w 4 = .wreg (BitVec.ofNat 8 (w.toNat / 2 ^ 20)) (BitVec.ofNat 20 w.toNat) := by
  simp only [fieldsOf, extractLsb'_eq_ofNat, pow_zero, Nat.div_one]

theorem fieldsOf_phrst (w : Word) :
    fieldsOf w 5 = .phrst (BitVec.ofNat 2 (w.toNat / 2 ^ 4)) (BitVec.ofNat 4 w.toNat) := by
  simp only [fieldsOf, extractLsb'_eq_ofNat, pow_zero, Nat.div_one]

/-! ### Decoding in three cases (R306) -/

theorem decode_of_illegalOpcode {w : Word} (h : 7 ≤ w.toNat / 2 ^ 28) : decode w = .error .illegalOpcode := by
  rw [decode, opcodeOf_eq, if_pos h]

theorem decode_of_reserved {w : Word} {op : Nat} (hop : w.toNat / 2 ^ 28 = op) (hlt : op < 7)
    (hres : ¬ ReservedClear op w.toNat) : decode w = .error .reservedBits := by
  rw [decode, opcodeOf_eq, hop, if_neg (by omega), if_pos (mt (and_reservedMask_eq_zero_iff w op).mp hres)]

theorem decode_of_legal {w : Word} {op : Nat} (hop : w.toNat / 2 ^ 28 = op) (hlt : op < 7)
    (hres : ReservedClear op w.toNat) : decode w = .instr (fieldsOf w op) := by
  have hmask := (and_reservedMask_eq_zero_iff w op).mpr hres
  rw [decode, opcodeOf_eq, hop, if_neg (by omega), if_neg (not_not.mpr hmask)]

/-- A word that decodes has a legal opcode and clear reserved bits. -/
theorem legal_of_decode_instr {w : Word} {i : Instr} (h : decode w = .instr i) :
    w.toNat / 2 ^ 28 < 7 ∧ ReservedClear (w.toNat / 2 ^ 28) w.toNat ∧ fieldsOf w (w.toNat / 2 ^ 28) = i := by
  by_cases hop : 7 ≤ w.toNat / 2 ^ 28
  · rw [decode_of_illegalOpcode hop] at h
    cases h
  · have hlt := Nat.lt_of_not_le hop
    by_cases hres : ReservedClear (w.toNat / 2 ^ 28) w.toNat
    · rw [decode_of_legal rfl hlt hres] at h
      cases h
      exact ⟨hlt, hres, rfl⟩
    · rw [decode_of_reserved rfl hlt hres] at h
      cases h

/-! ### Encoding and decoding are inverse (R301 to R308) -/

theorem Instr.opcode_lt (i : Instr) : i.opcode < 7 := by
  cases i <;> simp [Instr.opcode]

theorem encode_legal (i : Instr) : opcodeOf (encode i) = i.opcode ∧ encode i &&& reservedMask i.opcode = 0 := by
  cases i with
  | nop => exact Laws.LegalWord.nop
  | noteOn side note vel => exact Laws.LegalWord.noteOn side note vel
  | noteOff note => exact Laws.LegalWord.noteOff note
  | bend bval => exact Laws.LegalWord.bend bval
  | wreg index data => exact Laws.LegalWord.wreg index data
  | phrst pmask smask => exact Laws.LegalWord.phrst pmask smask
  | sreset => exact Laws.LegalWord.sreset

/-- A field read back from a number is the field that stands there. -/
theorem ofNat_eq_of_mod {n x : Nat} {v : BitVec n} (h : x % 2 ^ n = v.toNat) : BitVec.ofNat n x = v := by
  rw [BitVec.toNat_eq, BitVec.toNat_ofNat, h]

/-- Each field of a command stands at its place in the command's word. -/
theorem fieldsOf_encode (i : Instr) : fieldsOf (encode i) i.opcode = i := by
  cases i with
  | nop => rfl
  | noteOn side note vel =>
    have := note.isLt; have := vel.isLt
    have hside : ((encode (.noteOn side note vel)).toNat / 2 ^ 14 % 2 == 1) = side := by
      have := side.toNat_le
      have hbit : (encode (.noteOn side note vel)).toNat / 2 ^ 14 % 2 = side.toNat := by
        rw [encode_noteOn_toNat]; omega
      rw [hbit]
      cases side <;> rfl
    have hnote := ofNat_eq_of_mod (show (encode (.noteOn side note vel)).toNat / 2 ^ 7 % 2 ^ 7 = note.toNat by
      rw [encode_noteOn_toNat]; omega)
    have hvel := ofNat_eq_of_mod (show (encode (.noteOn side note vel)).toNat % 2 ^ 7 = vel.toNat by
      rw [encode_noteOn_toNat]; omega)
    rw [Instr.opcode, fieldsOf_noteOn, hside, hnote, hvel]
  | noteOff note =>
    have := note.isLt
    rw [Instr.opcode, fieldsOf_noteOff, encode_noteOff_toNat]
    exact congrArg Instr.noteOff (ofNat_eq_of_mod (by omega))
  | bend bval =>
    have := bval.isLt
    rw [Instr.opcode, fieldsOf_bend, encode_bend_toNat]
    exact congrArg Instr.bend (ofNat_eq_of_mod (by omega))
  | wreg index data =>
    have := index.isLt; have := data.isLt
    rw [Instr.opcode, fieldsOf_wreg, encode_wreg_toNat]
    exact congrArg₂ Instr.wreg (ofNat_eq_of_mod (by omega)) (ofNat_eq_of_mod (by omega))
  | phrst pmask smask =>
    have := pmask.isLt; have := smask.isLt
    rw [Instr.opcode, fieldsOf_phrst, encode_phrst_toNat]
    exact congrArg₂ Instr.phrst (ofNat_eq_of_mod (by omega)) (ofNat_eq_of_mod (by omega))
  | sreset => rfl

/-- The word of a command is legal, and its fields are the command's. -/
theorem decode_encode (i : Instr) : decode (encode i) = .instr i := by
  obtain ⟨hop, hres⟩ := encode_legal i
  rw [decode_of_legal ((opcodeOf_eq _).symm.trans hop) i.opcode_lt ((and_reservedMask_eq_zero_iff _ _).mp hres),
    fieldsOf_encode]

/-- Settles O1, by the opcode, the reserved bits and the fields of the command's word. -/
theorem decodeOfEncode : Obligations.DecodeOfEncode := decode_encode

/-- The fields of a word with clear reserved bits are the whole word. -/
theorem encode_fieldsOf {w : Word} {op : Nat} (hop : w.toNat / 2 ^ 28 = op) (hlt : op < 7)
    (hres : ReservedClear op w.toNat) : encode (fieldsOf w op) = w := by
  apply BitVec.eq_of_toNat_eq
  match op with
  | 0 =>
    have hzero : w.toNat % 2 ^ 28 = 0 := hres
    rw [fieldsOf, encode_nop_toNat]
    omega
  | 1 =>
    have hzero : w.toNat % 2 ^ 28 / 2 ^ 15 = 0 := hres
    rw [fieldsOf_noteOn, encode_noteOn_toNat, BitVec.toNat_ofNat, BitVec.toNat_ofNat]
    have hside : (w.toNat / 2 ^ 14 % 2 == 1).toNat = w.toNat / 2 ^ 14 % 2 := by
      obtain h | h := Nat.mod_two_eq_zero_or_one (w.toNat / 2 ^ 14) <;> rw [h] <;> rfl
    rw [hside]
    omega
  | 2 =>
    obtain ⟨hhigh, hlow⟩ : w.toNat % 2 ^ 28 / 2 ^ 14 = 0 ∧ w.toNat % 2 ^ 7 = 0 := hres
    rw [fieldsOf_noteOff, encode_noteOff_toNat, BitVec.toNat_ofNat]
    omega
  | 3 =>
    have hzero : w.toNat % 2 ^ 28 / 2 ^ 15 = 0 := hres
    rw [fieldsOf_bend, encode_bend_toNat, BitVec.toNat_ofNat]
    omega
  | 4 =>
    rw [fieldsOf_wreg, encode_wreg_toNat, BitVec.toNat_ofNat, BitVec.toNat_ofNat]
    omega
  | 5 =>
    have hzero : w.toNat % 2 ^ 28 / 2 ^ 6 = 0 := hres
    rw [fieldsOf_phrst, encode_phrst_toNat, BitVec.toNat_ofNat, BitVec.toNat_ofNat]
    omega
  | 6 =>
    have hzero : w.toNat % 2 ^ 28 = 0 := hres
    rw [fieldsOf, encode_sreset_toNat]
    · omega
    all_goals decide

/-- Settles O2: a word that decodes has clear reserved bits, so its fields are the whole word. -/
theorem legalWordIsUnique : Obligations.LegalWordIsUnique := by
  intro w i h
  obtain ⟨hlt, hres, rfl⟩ := legal_of_decode_instr h
  exact encode_fieldsOf rfl hlt hres

theorem decode_of_encode_eq {w : Word} {i : Instr} (h : encode i = w) : decode w = .instr i :=
  h ▸ decode_encode i

/-- Settles O4: each word of the table is the word of its command, and decodes to it by O1. -/
theorem vectorWordsDecode : Obligations.VectorWordsDecode :=
  ⟨decode_of_encode_eq (by decide), decode_of_encode_eq (by decide), decode_of_encode_eq (by decide),
    decode_of_encode_eq (by decide), decode_of_encode_eq (by decide), decode_of_encode_eq (by decide),
    decode_of_encode_eq (by decide), decode_of_encode_eq (by decide)⟩

end Sys2Proof

namespace Sys2Proof.Machine

/-! ### `Apply` of every word (R306) -/

theorem applyWord_of_illegalOpcode {w : Word} (s : State) (h : 7 ≤ w.toNat / 2 ^ 28) :
    applyWord w s = .next (latchError .illegalOpcode w s) := by
  rw [applyWord, decode_of_illegalOpcode h]

theorem applyWord_of_reserved {w : Word} {op : Nat} (s : State) (hlt : op < 7) (hop : w.toNat / 2 ^ 28 = op)
    (hres : ¬ ReservedClear op w.toNat) : applyWord w s = .next (latchError .reservedBits w s) := by
  rw [applyWord, decode_of_reserved hop hlt hres]

theorem applyWord_of_legal {w : Word} {op : Nat} (s : State) (hlt : op < 7) (hop : w.toNat / 2 ^ 28 = op)
    (hres : ReservedClear op w.toNat) : applyWord w s = exec (fieldsOf w op) s := by
  rw [applyWord, decode_of_legal hop hlt hres]

/-- Settles O3: the three cases of decoding at each opcode, with the reserved bits and the fields as numbers. -/
theorem applyDecodesAndPerforms : Obligations.ApplyDecodesAndPerforms := by
  intro w s
  rw [← fieldsOf_noteOn, ← fieldsOf_noteOff, ← fieldsOf_bend, ← fieldsOf_wreg, ← fieldsOf_phrst]
  exact ⟨applyWord_of_illegalOpcode s,
    applyWord_of_reserved s (by decide), applyWord_of_legal s (by decide),
    applyWord_of_reserved s (by decide), applyWord_of_legal s (by decide),
    fun hop hres => applyWord_of_reserved s (by decide) hop (not_and_or.mpr hres),
    fun hop hhigh hlow => applyWord_of_legal s (by decide) hop ⟨hhigh, hlow⟩,
    applyWord_of_reserved s (by decide), applyWord_of_legal s (by decide),
    fun hop => applyWord_of_legal s (by decide) hop trivial,
    applyWord_of_reserved s (by decide), applyWord_of_legal s (by decide),
    applyWord_of_reserved s (by decide), applyWord_of_legal s (by decide)⟩

/-- Settles O35: NOP answers its state, and the word 0 is the one legal word of opcode 0. -/
theorem nopChangesNothing : Obligations.NopChangesNothing := by
  intro s
  refine ⟨rfl, fun w hop hne => applyWord_of_reserved s (by decide) hop fun hres => hne ?_⟩
  exact (encode_fieldsOf hop (by decide) hres).symm

/-! ### Which commands raise (R308, R490, R601) -/

theorem Regs.write_err (r : Regs) (reg : Reg) (v : Int) : (r.write reg v).err = r.err := by
  cases reg with
  | pwb side o => cases side <;> rfl
  | _ => rfl

/-- A WREG index that WellFormed.lean accepts is mapped and writable. -/
theorem regOf_of_accepted {index : BitVec 8} (h : wregIndexAccepted index.toNat = true) :
    regOf index = some .status ∨ ∃ reg row, regOf index = some reg ∧ writeRow reg = some row := by
  simp only [wregIndexAccepted, Bool.or_eq_true, Bool.and_eq_true, decide_eq_true_eq] at h
  cases hreg : regOf index with
  | none =>
    have := (regOf_none_iff index).mp hreg
    omega
  | some reg =>
    by_cases hstatus : reg = .status
    · exact .inl (congrArg some hstatus)
    · cases hrow : writeRow reg with
      | none =>
        have := readOnly_index hreg hstatus hrow
        omega
      | some row => exact .inr ⟨reg, row, rfl, hrow⟩

/-- A WREG that is well-formed raises no error. -/
theorem writeRegister_of_wellFormed {index : BitVec 8} {data : BitVec 20} {s : State}
    (hwf : (Instr.wreg index data).wellFormed = true) (hclear : s.regs.err = false) :
    (writeRegister index data s).regs.err = false := by
  simp only [Instr.wellFormed, Bool.and_eq_true, Bool.or_eq_true, decide_eq_true_eq, bne_iff_ne] at hwf
  obtain ⟨⟨haccepted, hwidth⟩, hwaves⟩ := hwf
  obtain hreg | ⟨reg, row, hreg, hrow⟩ := regOf_of_accepted haccepted
  · have hindex := (regOf_status_iff index).mp hreg
    subst hindex
    have hdata : data.toNat < 2 := hwidth
    rw [writeRegister_of_status hreg]
    obtain ⟨hres, -⟩ | ⟨-, -, heq⟩ | ⟨-, -, heq⟩ := statusWrite_cases (encode (.wreg 0x01 data)) data s
    · have := (statusData_reserved_iff data).mp hres
      omega
    · rw [heq]
      rfl
    · rw [heq, hclear]
  · obtain ⟨-, -, hrowWidth⟩ := writable_index hreg hrow
    rw [writeRegister_of_writable hreg hrow]
    obtain ⟨hfits, -⟩ | ⟨-, hctrl, hillegal, -⟩ | ⟨-, -, heq⟩ :=
      writeChecked_cases (encode (.wreg index data)) reg row data s
    · rw [hrowWidth] at hwidth
      simp [WriteRow.fits, hwidth] at hfits
    · subst hctrl
      have hindex := (regOf_ctrl_iff index).mp hreg
      rw [illegalCtrl_eq, Bool.not_eq_true'] at hillegal
      simp [hindex, hillegal] at hwaves
    · rw [heq, State.withRegs_regs, Regs.write_err, hclear]

/-- Settles O47: WREG alone can raise, and it does exactly where the ranges of WellFormed.lean refuse it. -/
theorem wellFormedCommandsNeverRaise : Obligations.WellFormedCommandsNeverRaise := by
  intro i s hclear
  cases i with
  | nop => exact ⟨s, rfl, hclear⟩
  | noteOn side note vel =>
    refine ⟨_, rfl, ?_⟩
    split
    · rw [noteOffAction_eq]
      exact hclear
    · rw [soundNote_eq]
      exact hclear
  | noteOff note =>
    refine ⟨_, rfl, ?_⟩
    rw [noteOffAction_eq]
    exact hclear
  | bend bval => exact ⟨_, rfl, hclear⟩
  | wreg index data =>
    refine ⟨_, rfl, ?_⟩
    cases hwf : (Instr.wreg index data).wellFormed with
    | true => exact writeRegister_of_wellFormed hwf hclear
    | false =>
      obtain ⟨e, -, heq⟩ := writeRegister_of_illFormed hwf s
      rw [heq, latchError_of_clear hclear]
      rfl
  | phrst pmask smask => exact ⟨_, rfl, hclear⟩
  | sreset => exact ⟨_, rfl, rfl⟩

/-! ### The assembler (R310, R311) -/

/-- The word of a line other than `.word` is the word of a command (R310, R311). -/
theorem assemble_eq_encode {line : AsmLine} {w : Word} (h : assemble line = some w)
    (hline : ∀ v, line ≠ .dotWord v) : ∃ i, encode i = w := by
  cases line with
  | nop | sreset | clrerr | phrstall => exact ⟨_, Option.some.inj h⟩
  | noteOn _ _ _ | noteOff _ | bend _ | phrst _ _ | setnds _ _ | noteOnOff _ =>
    simp only [assemble, Option.ite_none_right_eq_some] at h
    exact ⟨_, Option.some.inj h.2⟩
  | wreg reg value =>
    simp only [assemble] at h
    split at h
    · obtain ⟨d, -, hw⟩ := Option.map_eq_some_iff.mp h
      exact ⟨_, hw⟩
    · cases h
  | dotWord v => exact absurd rfl (hline v)
  | sync => cases h

theorem fitsUnsigned_natCast (n : Nat) (v : Nat) : fitsUnsigned n v = decide (v < 2 ^ n) := by
  have hlt : (v : Int) < 2 ^ n ↔ v < 2 ^ n := by exact_mod_cast Iff.rfl
  simp [fitsUnsigned, hlt]

theorem assemble_setnds {n v : Nat} (hn : n < 128) (hv : v < 2 ^ 20) :
    assemble (.setnds n v) = some (BitVec.ofNat 32 (0x48000000 + n * 2 ^ 20 + v)) := by
  have hn' : n < 2 ^ 7 := hn
  simp only [assemble, fitsUnsigned_natCast, hn', hv, decide_true, Bool.and_self, if_true, BitVec.ofInt_natCast]
  congr 1
  apply BitVec.eq_of_toNat_eq
  have hbase : (0x80 : BitVec 8).toNat = 128 := rfl
  rw [encode_wreg_toNat, BitVec.toNat_add, hbase]
  simp only [BitVec.toNat_ofNat]
  omega

theorem assemble_noteOnOff {n : Nat} (hn : n < 128) :
    assemble (.noteOnOff n) = some (BitVec.ofNat 32 (0x10000000 + n * 2 ^ 7)) := by
  have hn' : n < 2 ^ 7 := hn
  simp only [assemble, fitsUnsigned_natCast, hn', decide_true, if_true, BitVec.ofInt_natCast]
  congr 1
  apply BitVec.eq_of_toNat_eq
  have hzero : (0 : BitVec 7).toNat = 0 := rfl
  rw [encode_noteOn_toNat, Bool.toNat_false, hzero]
  simp only [BitVec.toNat_ofNat]
  omega

/-- Settles O60: every line but `.word` assembles to the word of a command, which decodes by O1. -/
theorem assemblerWordsDecode : Obligations.AssemblerWordsDecode := by
  refine ⟨fun line w h hline => ?_, fun w => ?_, by decide, by decide, fun n v => assemble_setnds,
    fun n => assemble_noteOnOff⟩
  · obtain ⟨i, rfl⟩ := assemble_eq_encode h hline
    exact ⟨i, decode_encode i⟩
  · rw [assemble, mod32, BitVec.ofInt_natCast, BitVec.ofNat_toNat, BitVec.setWidth_eq]

end Sys2Proof.Machine
end

section
/-! SUPPORT. Proofs about the pitch path of 40_pitch_to_frequency.md: table E over the real numbers (O28); the constant
K_A4 (O30); mantissa, octave and pitch (O31, O29); the tuning word as a rounded product that rises with pitch and ratio
(O32, O33, O34); and what SUB mode reads of the registers (O19). -/

namespace Sys2Proof.Machine

/-! ### Rounding to nearest, halves up -/

/-- Rounding a quotient of naturals to nearest, halves up, in integer arithmetic. -/
theorem floor_div_add_half (a : Nat) {b : Nat} (hb : 0 < b) :
    ⌊(a / b : ℚ) + 1 / 2⌋ = (((2 * a + b) / (2 * b) : Nat) : Int) := by
  have hsum : (a / b : ℚ) + 1 / 2 = ((2 * a + b : Nat) : ℚ) / ((2 * b : Nat) : ℚ) := by
    push_cast
    field_simp
  rw [hsum, Rat.floor_natCast_div_natCast]
  norm_cast

/-- The same where the divisor is a power of two and half of it is added before the shift. -/
theorem floor_div_two_pow_add_half (a : Nat) {n : Nat} (hn : 0 < n) :
    ⌊(a / 2 ^ n : ℚ) + 1 / 2⌋ = (((a + 2 ^ (n - 1)) / 2 ^ n : Nat) : Int) := by
  have hpow : 2 ^ n = 2 * 2 ^ (n - 1) := (mul_pow_sub_one hn.ne' 2).symm
  have hround := floor_div_add_half a (b := 2 ^ n) (by positivity)
  push_cast at hround
  rw [hround, ← Nat.mul_div_mul_left (a + 2 ^ (n - 1)) (2 ^ n) two_pos, mul_add, ← hpow]
  norm_cast

/-! ### The constant K_A4 (R402) -/

/-- Settles O30: K_A4 is written as the rounded quotient. -/
theorem tuningConstantIsRounded : Obligations.TuningConstantIsRounded := by
  refine ⟨fun fs hfs => ?_, by decide, by decide⟩
  rw [kA4, mul_comm (440 * 2 ^ 48) 2, ← floor_div_add_half _ hfs]
  norm_cast

/-! ### Table E (R403) -/

theorem tableE_strict : tableE.IsChain (· < ·) := by decide +kernel

theorem expEntry_strictMono {i j : Nat} (hij : i < j) (hj : j ≤ 192) : expEntry i < expEntry j := by
  have hlt : j < tableE.length := by rw [tableE_length]; omega
  rw [expEntry, expEntry, List.getD_eq_getElem _ _ (hij.trans hlt), List.getD_eq_getElem _ _ hlt]
  exact List.pairwise_iff_getElem.mp (List.isChain_iff_pairwise.mp tableE_strict) i j _ hlt hij

theorem expEntry_monotone {i j : Nat} (hij : i ≤ j) (hj : j ≤ 192) : expEntry i ≤ expEntry j := by
  obtain rfl | hlt := hij.eq_or_lt
  · rfl
  · exact (expEntry_strictMono hlt hj).le

/-- The exponential that table E rounds, doubled, is a 192nd root. -/
theorem exponential_pow (k : Nat) : (2 * ((2 : ℝ) ^ 31 * 2 ^ ((k : ℝ) / 192))) ^ 192 = 2 ^ (6144 + k) := by
  have hroot : ((2 : ℝ) ^ ((k : ℝ) / 192)) ^ 192 = 2 ^ k := by
    rw [← Real.rpow_natCast, ← Real.rpow_mul two_pos.le, ← Real.rpow_natCast 2 k]
    norm_num
  rw [mul_pow, mul_pow, hroot, ← pow_mul, ← mul_assoc, ← pow_add, ← pow_add]

/-- The exponential rounds to `n` where `2^(32 * 192 + k)` lies between the 192nd powers of the doubles of `n`'s two
rounding limits. -/
theorem floor_exponential_of_pow_bounds {n k : Nat} (hn : 0 < n) (hlow : (2 * n - 1) ^ 192 ≤ 2 ^ (6144 + k))
    (hhigh : 2 ^ (6144 + k) < (2 * n + 1) ^ 192) : ⌊(2 : ℝ) ^ 31 * 2 ^ ((k : ℝ) / 192) + 1 / 2⌋ = n := by
  have hbelow : 2 * (n : ℝ) - 1 ≤ 2 * (2 ^ 31 * 2 ^ ((k : ℝ) / 192)) := by
    refine le_of_pow_le_pow_left₀ (n := 192) (by decide) (by positivity) ?_
    have hcast := Nat.cast_le (α := ℝ).mpr hlow
    push_cast [show 1 ≤ 2 * n by omega] at hcast
    rwa [exponential_pow]
  have habove : 2 * (2 ^ 31 * 2 ^ ((k : ℝ) / 192)) < 2 * (n : ℝ) + 1 := by
    refine lt_of_pow_lt_pow_left₀ 192 (by positivity) ?_
    rw [exponential_pow]
    exact_mod_cast hhigh
  rw [Int.floor_eq_iff, Int.cast_natCast]
  constructor <;> linarith

theorem expEntry_pow_bounds : ∀ k < 193, 0 < expEntry k ∧
    (2 * expEntry k - 1) ^ 192 ≤ 2 ^ (6144 + k) ∧ 2 ^ (6144 + k) < (2 * expEntry k + 1) ^ 192 := by
  decide +kernel

/-- Settles O28: an entry's rounding limits compare with the exponential as their 192nd powers do, and these are
integers that the kernel compares. -/
theorem tableEIsRoundedExponential : Obligations.TableEIsRoundedExponential := by
  intro k hk
  obtain ⟨hpos, hlow, hhigh⟩ := expEntry_pow_bounds k (by omega)
  exact (floor_exponential_of_pow_bounds hpos hlow hhigh).symm

/-! ### The mantissa (R404) -/

/-- The interpolation with quotient and remainder in place of the shift and the mask. -/
theorem mantissaOf_eq (rem : Nat) :
    mantissaOf rem =
      expEntry (rem / 4096) + (expEntry (rem / 4096 + 1) - expEntry (rem / 4096)) * (rem % 4096) / 4096 := by
  unfold mantissaOf
  simp only [Nat.shiftRight_eq_div_pow]
  rw [show (0xFFF : Nat) = 2 ^ 12 - 1 from rfl, Nat.and_two_pow_sub_one_eq_mod]

/-- The interpolation on integers, as R404 writes it: the entries rise, so the model's difference is not cut at 0. -/
theorem mantissaOf_toInt {rem : Nat} (h : rem < 786432) :
    (mantissaOf rem : Int) =
      expEntry (rem / 4096)
        + ((expEntry (rem / 4096 + 1) : Int) - expEntry (rem / 4096)) * (rem % 4096 : Nat) / 4096 := by
  have hstep := expEntry_mono (k := rem / 4096) (by omega)
  rw [mantissaOf_eq]
  push_cast [hstep]
  rfl

/-- The mantissa lies between the entries around its position, and below the upper one. -/
theorem mantissaOf_bounds {rem : Nat} (h : rem < 786432) :
    expEntry (rem / 4096) ≤ mantissaOf rem ∧ mantissaOf rem < expEntry (rem / 4096 + 1) := by
  have hstep := expEntry_strictMono (i := rem / 4096) (j := rem / 4096 + 1) (by omega) (by omega)
  have hpart : (expEntry (rem / 4096 + 1) - expEntry (rem / 4096)) * (rem % 4096) / 4096
      < expEntry (rem / 4096 + 1) - expEntry (rem / 4096) := by
    refine Nat.div_lt_of_lt_mul ?_
    rw [mul_comm 4096]
    exact Nat.mul_lt_mul_of_pos_left (Nat.mod_lt _ (by decide)) (by omega)
  rw [mantissaOf_eq]
  omega

/-- The mantissa is a 32-bit number with its top bit set. -/
theorem mantissaOf_range {rem : Nat} (h : rem < 786432) : 2 ^ 31 ≤ mantissaOf rem ∧ mantissaOf rem < 2 ^ 32 := by
  have hfirst : expEntry 0 = 2 ^ 31 := rfl
  have hlast : expEntry 192 = 2 ^ 32 := by decide
  have hlow := expEntry_monotone (Nat.zero_le (rem / 4096)) (by omega)
  have hhigh := expEntry_monotone (i := rem / 4096 + 1) (j := 192) (by omega) le_rfl
  have hbounds := mantissaOf_bounds h
  omega

/-- The mantissa rises with the position: between two entries by interpolation, across entries because each piece ends
below the next entry. -/
theorem mantissaOf_mono {rem rem' : Nat} (hle : rem ≤ rem') (h : rem' < 786432) :
    mantissaOf rem ≤ mantissaOf rem' := by
  obtain hsame | hbefore := (Nat.div_le_div_right (c := 4096) hle).eq_or_lt
  · rw [mantissaOf_eq, mantissaOf_eq, hsame]
    have hrem : rem % 4096 ≤ rem' % 4096 := by omega
    gcongr
  · calc mantissaOf rem
      _ ≤ expEntry (rem / 4096 + 1) := (mantissaOf_bounds (hle.trans_lt h)).2.le
      _ ≤ expEntry (rem' / 4096) := expEntry_monotone hbefore (by omega)
      _ ≤ mantissaOf rem' := (mantissaOf_bounds h).1

/-! ### Octave and position of a pitch (R404) -/

theorem withinOctave_eq (p : Int) : (withinOctave p : Int) = (p - 69 * 65536) % 786432 := by
  unfold withinOctave octaveOf
  omega

theorem withinOctave_lt (p : Int) : withinOctave p < 786432 := by
  have := withinOctave_eq p
  omega

theorem octaveOf_range {p : Int} (h₁ : -33 * 65536 ≤ p) (h₂ : p < 159 * 65536) :
    -9 ≤ octaveOf p ∧ octaveOf p ≤ 7 := by
  unfold octaveOf
  omega

/-- A higher pitch lies in a higher octave, or further up in the same one. -/
theorem octave_cases_of_le {p p' : Int} (h : p ≤ p') :
    octaveOf p < octaveOf p' ∨ (octaveOf p = octaveOf p' ∧ withinOctave p ≤ withinOctave p') := by
  have hp := withinOctave_eq p
  have hp' := withinOctave_eq p'
  unfold octaveOf
  omega

/-- Settles O31, range by range. -/
theorem pitchIntermediatesInRange : Obligations.PitchIntermediatesInRange := by
  intro p h₁ h₂
  obtain ⟨hlow, hhigh⟩ := octaveOf_range h₁ h₂
  exact ⟨hlow, hhigh, withinOctave_lt p, mantissaOf_range (withinOctave_lt p)⟩

/-! ### The tuning word (R404) -/

/-- The tuning word before its reduction is an exact product rounded to nearest, as long as there is a shift. -/
theorem unreducedFtw_eq_floor (fs : Nat) {p : Int} (ratio : Nat) (h : octaveOf p ≤ 54) :
    (unreducedFtw fs p ratio : Int) =
      ⌊((kA4 fs * mantissaOf (withinOctave p) * ratio : Nat) / 2 ^ (55 - octaveOf p).toNat : ℚ) + 1 / 2⌋ := by
  rw [floor_div_two_pow_add_half _ (by omega)]
  rfl

/-- Settles O32: position and offset of the statement are those of the mantissa, and the shift is not 0. -/
theorem tuningWordIsRounded : Obligations.TuningWordIsRounded := by
  intro fs p ratio h₁ h₂
  have hrem := withinOctave_eq p
  have hindex : ((p - 69 * 65536) % 786432).toNat = withinOctave p := by omega
  have hoffset : (p - 69 * 65536) % 4096 = (withinOctave p % 4096 : Nat) := by omega
  have hfloor := unreducedFtw_eq_floor fs ratio ((octaveOf_range h₁ h₂).2.trans (by decide))
  dsimp only
  rw [hindex, hoffset, ← mantissaOf_toInt (withinOctave_lt p), pitchToFtw, BitVec.toNat_ofNat]
  push_cast at hfloor ⊢
  rw [hfloor]
  rfl

/-- The scaled mantissa rises with the pitch: within an octave because the mantissa does, across octaves because a
mantissa is less than twice another one. -/
theorem mantissa_div_shift_mono {p p' : Int} (hle : p ≤ p') (h : octaveOf p' ≤ 55) :
    (mantissaOf (withinOctave p) / 2 ^ (55 - octaveOf p).toNat : ℚ) ≤
      mantissaOf (withinOctave p') / 2 ^ (55 - octaveOf p').toNat := by
  obtain hoct | ⟨hoct, hrem⟩ := octave_cases_of_le hle
  · have hm := (mantissaOf_range (withinOctave_lt p)).2
    have hm' := (mantissaOf_range (withinOctave_lt p')).1
    rw [div_le_div_iff₀ (by positivity) (by positivity)]
    norm_cast
    calc mantissaOf (withinOctave p) * 2 ^ (55 - octaveOf p').toNat
      _ ≤ 2 * mantissaOf (withinOctave p') * 2 ^ (55 - octaveOf p').toNat := by gcongr; omega
      _ = mantissaOf (withinOctave p') * 2 ^ ((55 - octaveOf p').toNat + 1) := by ring
      _ ≤ mantissaOf (withinOctave p') * 2 ^ (55 - octaveOf p).toNat := by gcongr <;> omega
  · rw [hoct]
    gcongr
    exact mantissaOf_mono hrem (withinOctave_lt p')

theorem unreducedFtw_mono_pitch (fs : Nat) {p p' : Int} (ratio : Nat) (hle : p ≤ p') (h : octaveOf p' ≤ 54) :
    unreducedFtw fs p ratio ≤ unreducedFtw fs p' ratio := by
  have hoct : octaveOf p ≤ 54 := by
    obtain hoct | ⟨hoct, -⟩ := octave_cases_of_le hle <;> omega
  have hscaled := mantissa_div_shift_mono hle (h.trans (by decide))
  zify
  rw [unreducedFtw_eq_floor fs ratio hoct, unreducedFtw_eq_floor fs ratio h]
  refine Int.floor_le_floor ?_
  push_cast
  rw [mul_right_comm, mul_right_comm _ (mantissaOf (withinOctave p') : ℚ), mul_div_assoc, mul_div_assoc]
  exact add_le_add_left (mul_le_mul_of_nonneg_left hscaled (by positivity)) _

theorem unreducedFtw_mono_ratio (fs : Nat) (p : Int) {ratio ratio' : Nat} (h : ratio ≤ ratio') :
    unreducedFtw fs p ratio ≤ unreducedFtw fs p ratio' := by
  unfold unreducedFtw
  dsimp only
  gcongr

/-- Settles O33: the octave of the higher pitch is at most 7, so both words are shifted. -/
theorem tuningWordIsMonotone : Obligations.TuningWordIsMonotone := by
  intro fs p p' ratio ratio' h₁ hle h₂ hratio
  have hoct := (octaveOf_range (h₁.trans hle) h₂).2
  exact ⟨unreducedFtw_mono_pitch fs ratio hle (hoct.trans (by decide)), unreducedFtw_mono_ratio fs p hratio⟩

/-- Settles O34 by evaluating each row. -/
theorem tuningWordVectors : Obligations.TuningWordVectors :=
  ⟨by decide, by decide, by decide, by decide, by decide, by decide, by decide, by decide⟩

/-! ### The pitch and the tuning word of a slot (R401, R405, R406) -/

theorem ratioOf_eq (r : Regs) (s : Slot) :
    ratioOf r s = if r.ctrl.getLsbD 0 = true ∧ (s = 1 ∨ s = 3) then r.ratio.toNat else 256 := by
  simp [ratioOf, isModulator, Regs.fmMode]

/-- The bend lies within 24 semitones of 0 (R410). -/
theorem bendQ_range {r : Regs} (h : r.Legal) : -24 * 65536 ≤ bendQ r ∧ bendQ r ≤ 24 * 65536 := by
  have habs : |r.bend.toInt * r.bendrange.toNat| ≤ 8192 * 24 := by
    rw [abs_mul]
    gcongr
    · exact abs_le.mpr h.bend
    · rw [Nat.abs_cast]
      exact_mod_cast h.bendrange
  obtain ⟨hprod₁, hprod₂⟩ := abs_le.mp habs
  unfold bendQ
  omega

/-- The pitch of a legal register file lies in R401's range: the note spans 0 to 127 or is -1, the bend 24 semitones to
either side and the detune 8. -/
theorem pitchOf_range {r : Regs} (h : r.Legal) (s : Slot) :
    -33 * 65536 ≤ pitchOf r s ∧ pitchOf r s < 159 * 65536 := by
  have hnote := h.note
  have hnote_lt := BitVec.toInt_lt (x := r.note)
  have hbend := bendQ_range h
  have hdetune := BitVec.le_toInt (r.detune.get s)
  have hdetune_lt := BitVec.toInt_lt (x := r.detune.get s)
  unfold pitchOf
  omega

/-- Settles O29: the pitch formula is the model's own, and the ratio follows from CTRL and the slot. -/
theorem pitchFormulaAndRange : Obligations.PitchFormulaAndRange :=
  ⟨fun _ r s => by rw [ftwOf, ratioOf_eq], fun _ s h => ⟨rfl, pitchOf_range h s⟩⟩

/-! ### What SUB mode reads (R405, R442) -/

theorem computeSample_of_subMode (P : Params) {r : Regs} (hactive : r.active = true) (hmode : r.fmMode = false) :
    computeSample P r = subStep (ftwAll P r) r := by
  simp [computeSample, hactive, hmode]

/-- SUB mode plays every slot at the ratio 1.0 (R405). -/
theorem ftwOf_of_subMode (P : Params) {r : Regs} (hmode : r.fmMode = false) (s : Slot) :
    ftwOf P r s = pitchToFtw P.sampleRate (pitchOf r s) 256 := by
  simp [ftwOf, ratioOf, hmode]

theorem ftwAll_get (P : Params) (r : Regs) (s : Slot) : (ftwAll P r).get s = ftwOf P r s := by
  fin_cases s <;> rfl

/-- A SUB step advances the phases of S0 and S1 by their tuning words (R442). -/
theorem subStep_phase_get (ftw : Four Word) (r : Regs) {s : Slot} (hs : s.val < 2) :
    (subStep ftw r).regs.phase.get s = r.phase.get s + ftw.get s := by
  simp only [subStep, Regs.advance_phase_get]
  fin_cases s <;> simp at hs ⊢

/-- Settles O19: the two runs are one SUB step each, with equal tuning words of S0 and S1, phases and pulse widths. -/
theorem subModeIgnoresFmState : Obligations.SubModeIgnoresFmState := by
  intro P r r' hactive hactive' hmode hctrl hnote hbend hbendrange hpweff hslots
  have hmode' : r'.fmMode = false := by rwa [Regs.fmMode, hctrl]
  have hftw : ∀ n : Slot, n.val < 2 → ftwOf P r' n = ftwOf P r n := by
    intro n hn
    rw [ftwOf_of_subMode P hmode', ftwOf_of_subMode P hmode, pitchOf, pitchOf, bendQ, bendQ, hnote, hbend, hbendrange,
      (hslots n hn).2]
  rw [computeSample_of_subMode P hactive hmode, computeSample_of_subMode P hactive' hmode']
  refine ⟨?_, ?_, fun n hn => ?_⟩
  · simp only [subStep, subSample, hctrl, (hslots 0 (by decide)).1, hpweff]
  · simp only [subStep, subSample, hctrl, (hslots 1 (by decide)).1, hpweff]
  · rw [subStep_phase_get _ _ hn, subStep_phase_get _ _ hn, ftwAll_get, ftwAll_get, hftw n hn, (hslots n hn).1]

end Sys2Proof.Machine
end

section
/-! SUPPORT. Proofs about the waveforms of 41_waveforms.md: the quarter sine rises to its end (O26); the sine by
quadrant and its symmetries (O24, O25); table T over the real numbers, where the sine is extreme, and what a step emits
(O23); Pulse (O27); and who writes a phase (O50). -/

namespace Sys2Proof.Machine

/-! ### The quarter sine (R424) -/

theorem sineEntry_monotone {i j : Nat} (hij : i ≤ j) (hj : j ≤ 256) : sineEntry i ≤ sineEntry j := by
  obtain rfl | hlt := hij.eq_or_lt
  · rfl
  · have hlen : j < tableT.length := by rw [tableT_length]; omega
    rw [sineEntry, sineEntry, List.getD_eq_getElem _ _ (hlt.trans hlen), List.getD_eq_getElem _ _ hlen]
    exact List.pairwise_iff_getElem.mp (List.isChain_iff_pairwise.mp tableT_chain) i j _ hlen hlt

/-- The quarter sine rises: within one interval of table T with the interpolation, from interval to interval with the
entries. -/
theorem quarterSine_mono {pos pos' : Nat} (h : pos ≤ pos') (h' : pos' ≤ 2 ^ 22) :
    quarterSine pos ≤ quarterSine pos' := by
  obtain rfl | htop := h'.eq_or_lt
  · rw [quarterSine_top]
    exact (quarterSine_range h).2
  · obtain heq | hlt := (Nat.div_le_div_right h : pos / 2 ^ 14 ≤ pos' / 2 ^ 14).eq_or_lt
    · have hentry : (sineEntry (pos' / 2 ^ 14) : Int) ≤ sineEntry (pos' / 2 ^ 14 + 1) := by
        exact_mod_cast sineEntry_mono (by omega)
      have hpart : ((pos % 2 ^ 14 : Nat) : Int) ≤ (pos' % 2 ^ 14 : Nat) := by omega
      rw [quarterSine_eq, quarterSine_eq, heq, if_neg (by omega), if_neg (by omega)]
      exact add_le_add_right
        (Int.ediv_le_ediv (by decide) (mul_le_mul_of_nonneg_left hpart (sub_nonneg.mpr hentry))) _
    · have hentry : (sineEntry (pos / 2 ^ 14 + 1) : Int) ≤ sineEntry (pos' / 2 ^ 14) := by
        exact_mod_cast sineEntry_monotone hlt (by omega)
      calc quarterSine pos ≤ sineEntry (pos / 2 ^ 14 + 1) := (quarterSine_bounds (h.trans_lt htop)).2
        _ ≤ sineEntry (pos' / 2 ^ 14) := hentry
        _ ≤ quarterSine pos' := (quarterSine_bounds htop).1

theorem quarterSine_eq_top_iff {pos : Nat} (h : pos ≤ 2 ^ 22) : quarterSine pos = 32767 ↔ pos = 2 ^ 22 := by
  constructor
  · intro htop
    by_contra hne
    have hbefore : quarterSine (2 ^ 22 - 1) = 32766 := by decide +kernel
    have hmono := quarterSine_mono (pos := pos) (pos' := 2 ^ 22 - 1) (by omega) (by omega)
    omega
  · rintro rfl
    exact quarterSine_top

/-! ### The sine by quadrant, and its symmetries (R424, R427) -/

theorem sine_of_first_quarter {phi : Word} (h : phi.toNat / 256 ≤ 2 ^ 22) :
    sine phi = quarterSine (phi.toNat / 256) := by
  rw [sine_eq]
  dsimp only
  rw [if_neg (by omega)]
  congr 1
  split <;> omega

/-- The second quarter runs through the quarter sine backwards, to 0 at the half cycle. -/
theorem sine_of_second_quarter {phi : Word} (h : 2 ^ 22 ≤ phi.toNat / 256) (h' : phi.toNat / 256 ≤ 2 ^ 23) :
    sine phi = quarterSine (2 ^ 23 - phi.toNat / 256) := by
  obtain hmid | hlt := h'.eq_or_lt
  · rw [sine_eq, hmid]
    decide +kernel
  · rw [sine_eq]
    dsimp only
    rw [if_neg (by omega), if_pos (by omega)]
    congr 1
    omega

/-- Half a cycle on, the quadrant is two further at the same position. -/
theorem sine_add_half (phi : Word) : sine (phi + 0x80000000) = -sine phi := by
  have hphi := phi.isLt
  have hsum : (phi + 0x80000000).toNat = (phi.toNat + 2 ^ 31) % 2 ^ 32 := BitVec.toNat_add _ _
  have hquad : (phi + 0x80000000).toNat / 256 / 2 ^ 22 = (phi.toNat / 256 / 2 ^ 22 + 2) % 4 := by omega
  have hpart : (phi + 0x80000000).toNat / 256 % 2 ^ 22 = phi.toNat / 256 % 2 ^ 22 := by omega
  rw [sine_eq, sine_eq]
  dsimp only
  rw [hquad, hpart, show (phi.toNat / 256 / 2 ^ 22 + 2) % 4 % 2 = phi.toNat / 256 / 2 ^ 22 % 2 by omega]
  by_cases h : 2 ≤ phi.toNat / 256 / 2 ^ 22
  · rw [if_pos h, if_neg (by omega), neg_neg]
  · rw [if_neg h, if_pos (by omega)]

/-- Settles O24, from the two quadrants that half a cycle adds. -/
theorem sineHalfCycleAntisymmetry : Obligations.SineHalfCycleAntisymmetry := sine_add_half

/-- Every phase is in the first half cycle or half a cycle on from one that is. -/
theorem half_cycle_cases (phi : Word) :
    phi.toNat < 2 ^ 31 ∨ ∃ psi : Word, psi.toNat < 2 ^ 31 ∧ phi = psi + 0x80000000 := by
  by_cases h : phi.toNat < 2 ^ 31
  · exact .inl h
  · refine .inr ⟨phi - 0x80000000, ?_, by simp⟩
    bv_omega

/-- In the first half cycle, a phase on the grid of 256 and its mirror about the quarter cycle have one position. -/
theorem sine_half_sub_of_first_half {phi : Word} (hgrid : phi.toNat % 256 = 0) (hhalf : phi.toNat < 2 ^ 31) :
    sine (0x80000000 - phi) = sine phi := by
  have hmirror : (0x80000000 - phi).toNat / 256 = 2 ^ 23 - phi.toNat / 256 := by bv_omega
  obtain h | h := Nat.le_total (phi.toNat / 256) (2 ^ 22)
  · rw [sine_of_second_quarter (by omega) (by omega), sine_of_first_quarter h, hmirror]
    congr 1
    omega
  · rw [sine_of_first_quarter (by omega), sine_of_second_quarter h (by omega), hmirror]

theorem sine_half_sub {phi : Word} (hgrid : phi.toNat % 256 = 0) : sine (0x80000000 - phi) = sine phi := by
  obtain hhalf | ⟨psi, hhalf, rfl⟩ := half_cycle_cases phi
  · exact sine_half_sub_of_first_half hgrid hhalf
  · have hsplit : (0x80000000 : Word) - (psi + 0x80000000) = (0x80000000 - psi) + 0x80000000 := by bv_omega
    rw [hsplit, sine_add_half, sine_add_half, sine_half_sub_of_first_half (by bv_omega) hhalf]

/-- Settles O25: minus a phase is half a cycle on from its mirror. -/
theorem sineReflections : Obligations.SineReflections := by
  intro phi hgrid
  have hsplit : -phi = (0x80000000 - phi) + 0x80000000 := by bv_omega
  exact ⟨sine_half_sub hgrid, by rw [hsplit, sine_add_half, sine_half_sub hgrid]⟩

/-- Settles O26: the first quarter is the quarter sine, which rises. -/
theorem sineRisesOnFirstQuarter : Obligations.SineRisesOnFirstQuarter := by
  intro phi psi hle hquarter
  rw [sine_of_first_quarter (by omega), sine_of_first_quarter (by omega)]
  exact quarterSine_mono (by omega) (by omega)

/-! ### Table T (R423) -/

/-- The Taylor polynomial of the sine with `n` terms. -/
def sinTaylor {K : Type} [Field K] (n : Nat) (x : K) : K :=
  ∑ j ∈ Finset.range n, (-1) ^ j * x ^ (2 * j + 1) / ((2 * j + 1).factorial : K)

theorem sinTaylor_cast (n : Nat) (x : ℚ) : ((sinTaylor n x : ℚ) : ℝ) = sinTaylor n (x : ℝ) := by
  simp [sinTaylor]

/-- The sine's Taylor polynomial is the imaginary part of the exponential's at `x * I`. -/
theorem exp_partialSum_im (n : Nat) (x : ℝ) :
    (∑ m ∈ Finset.range (2 * n), (x * Complex.I) ^ m / (m.factorial : ℂ)).im = sinTaylor n x := by
  induction n with
  | zero => simp [sinTaylor]
  | succ n ih =>
    have heven : (x * Complex.I) ^ (2 * n) = ((x ^ (2 * n) * (-1) ^ n : ℝ) : ℂ) := by
      rw [mul_pow, pow_mul Complex.I, Complex.I_sq]
      push_cast
      rfl
    have hodd : (x * Complex.I) ^ (2 * n + 1) = (((-1) ^ n * x ^ (2 * n + 1) : ℝ) : ℂ) * Complex.I := by
      rw [pow_succ, heven]
      push_cast
      ring
    rw [mul_add_one, Finset.sum_range_succ, Finset.sum_range_succ, Complex.add_im, Complex.add_im, ih, heven, hodd,
      sinTaylor, sinTaylor, Finset.sum_range_succ, Complex.div_natCast_im, Complex.div_natCast_im]
    simp only [Complex.ofReal_im, Complex.im_ofReal_mul, Complex.I_im, zero_div, add_zero, mul_one]

theorem abs_sin_sub_sinTaylor_le {n : Nat} {x : ℝ} (h : |x| ≤ n) :
    |Real.sin x - sinTaylor n x| ≤ |x| ^ (2 * n) / (2 * n).factorial * 2 := by
  have hnorm : ‖(x * Complex.I : ℂ)‖ = |x| := by simp
  have hratio : ‖(x * Complex.I : ℂ)‖ / (2 * n).succ ≤ 1 / 2 := by
    rw [hnorm, div_le_iff₀ (by positivity)]
    push_cast
    linarith
  calc |Real.sin x - sinTaylor n x|
      = |(Complex.exp (x * Complex.I) - ∑ m ∈ Finset.range (2 * n), (x * Complex.I) ^ m / (m.factorial : ℂ)).im| := by
        rw [Complex.sub_im, exp_partialSum_im, Complex.exp_ofReal_mul_I_im]
    _ ≤ _ := Complex.abs_im_le_norm _
    _ ≤ |x| ^ (2 * n) / (2 * n).factorial * 2 := hnorm ▸ Complex.exp_bound' hratio

/-- The angle `π/2 * k/256` of table T's entry `k`, with π cut to 20 decimals. -/
def tableAngle (k : Nat) : ℚ := 3.14159265358979323846 / 2 * (k / 256)

theorem abs_sub_tableAngle_le {k : Nat} (hk : k ≤ 256) :
    |Real.pi / 2 * ((k : ℝ) / 256) - tableAngle k| ≤ 1 / 10 ^ 20 := by
  have hlow := Real.pi_gt_d20
  have hhigh := Real.pi_lt_d20
  have hpart : (k : ℝ) / 256 ≤ 1 := by
    rw [div_le_one (by norm_num)]
    exact_mod_cast hk
  have hpi : |Real.pi / 2 - 3.14159265358979323846 / 2| ≤ 1 / 10 ^ 20 := by
    rw [abs_le]
    constructor <;> linarith
  rw [tableAngle]
  push_cast
  rw [← sub_mul, abs_mul, abs_of_nonneg (by positivity : (0 : ℝ) ≤ k / 256)]
  exact (mul_le_of_le_one_right (abs_nonneg _) hpart).trans hpi

/-- Nine Taylor terms at the rational angle come near enough to the sine for the rounding of table T. -/
theorem abs_sin_sub_sinTaylor_tableAngle_le {k : Nat} (hk : k ≤ 256) :
    |Real.sin (Real.pi / 2 * ((k : ℝ) / 256)) - (sinTaylor 9 (tableAngle k) : ℚ)| ≤ 1 / 10 ^ 8 := by
  have hangle : |(tableAngle k : ℝ)| ≤ 8 / 5 := by
    have hk : (k : ℝ) ≤ 256 := by exact_mod_cast hk
    rw [tableAngle]
    push_cast
    rw [abs_of_nonneg (by positivity)]
    linarith
  have htaylor : |Real.sin (tableAngle k) - sinTaylor 9 (tableAngle k : ℝ)| ≤ (8 / 5) ^ 18 / (18).factorial * 2 :=
    (abs_sin_sub_sinTaylor_le (hangle.trans (by norm_num))).trans (by gcongr)
  calc _ ≤ |Real.sin (Real.pi / 2 * ((k : ℝ) / 256)) - Real.sin (tableAngle k)|
        + |Real.sin (tableAngle k) - sinTaylor 9 (tableAngle k : ℝ)| := by
        rw [sinTaylor_cast]
        exact abs_sub_le _ _ _
    _ ≤ 1 / 10 ^ 20 + (8 / 5) ^ 18 / (18).factorial * 2 :=
        add_le_add ((Real.abs_sin_sub_sin_le _ _).trans (abs_sub_tableAngle_le hk)) htaylor
    _ ≤ 1 / 10 ^ 8 := by norm_num [Nat.factorial]

/-- Table T's formula, with the Taylor polynomial in place of the sine, rounds to the entry with 1/1000 to spare. -/
theorem sineEntry_taylor_bounds : ∀ k < 257,
    (sineEntry k : ℚ) + 1 / 1000 ≤ 32767 * sinTaylor 9 (tableAngle k) + 1 / 2 ∧
      32767 * sinTaylor 9 (tableAngle k) + 1 / 2 + 1 / 1000 ≤ sineEntry k + 1 := by
  decide +kernel

/-- Table T is its formula rounded to nearest, halves up, over the real numbers (R423). -/
theorem sineEntry_eq_floor {k : Nat} (hk : k ≤ 256) :
    (sineEntry k : Int) = ⌊(32767 : ℝ) * Real.sin (Real.pi / 2 * ((k : ℝ) / 256)) + 1 / 2⌋ := by
  obtain ⟨hlow, hhigh⟩ := sineEntry_taylor_bounds k (by omega)
  obtain ⟨hbelow, habove⟩ := abs_le.mp (abs_sin_sub_sinTaylor_tableAngle_le hk)
  have hlow := Rat.cast_le (K := ℝ).mpr hlow
  have hhigh := Rat.cast_le (K := ℝ).mpr hhigh
  push_cast at hlow hhigh
  rw [eq_comm, Int.floor_eq_iff, Int.cast_natCast]
  constructor <;> linarith

/-! ### Extremes, interpolation and the emitted samples (R424, R426, R453) -/

/-- The first half cycle reads the quarter sine, at its end exactly at the quarter cycle. -/
theorem exists_quarterSine_of_first_half {phi : Word} (h : phi.toNat < 2 ^ 31) :
    ∃ pos ≤ 2 ^ 22, sine phi = quarterSine pos ∧ (pos = 2 ^ 22 ↔ phi.toNat / 2 ^ 8 = 2 ^ 22) := by
  obtain hq | hq := Nat.le_total (phi.toNat / 256) (2 ^ 22)
  · exact ⟨_, hq, sine_of_first_quarter hq, Iff.rfl⟩
  · exact ⟨2 ^ 23 - phi.toNat / 256, by omega, sine_of_second_quarter hq (by omega), by omega⟩

/-- The first half cycle tops out at the quarter cycle alone; in the second the sine is not positive. -/
theorem sine_eq_max_iff (phi : Word) : sine phi = 32767 ↔ phi.toNat / 2 ^ 8 = 2 ^ 22 := by
  obtain h | ⟨psi, h, rfl⟩ := half_cycle_cases phi
  · obtain ⟨pos, hpos, hsine, htop⟩ := exists_quarterSine_of_first_half h
    rw [hsine, quarterSine_eq_top_iff hpos, htop]
  · obtain ⟨pos, hpos, hsine, -⟩ := exists_quarterSine_of_first_half h
    have hsign := (quarterSine_range hpos).1
    have hphase : (psi + 0x80000000).toNat = psi.toNat + 2 ^ 31 := by bv_omega
    rw [sine_add_half, hsine]
    omega

theorem sine_eq_min_iff (phi : Word) : sine phi = -32767 ↔ phi.toNat / 2 ^ 8 = 3 * 2 ^ 22 := by
  rw [← neg_inj, neg_neg, ← sine_add_half, sine_eq_max_iff]
  bv_omega

/-- The position in the quarter sine at which a phase is read: that of the upper 24 bits within their quadrant, mirrored
in quadrants 1 and 3 (R424). -/
def quadrantPos (phi : Word) : Nat :=
  if phi.toNat / 2 ^ 30 = 1 ∨ phi.toNat / 2 ^ 30 = 3 then 2 ^ 22 - phi.toNat / 2 ^ 8 % 2 ^ 22
  else phi.toNat / 2 ^ 8 % 2 ^ 22

theorem quadrantPos_le (phi : Word) : quadrantPos phi ≤ 2 ^ 22 := by
  unfold quadrantPos
  split <;> omega

theorem sine_eq_quarterSine (phi : Word) :
    sine phi = if phi.toNat / 2 ^ 30 = 2 ∨ phi.toNat / 2 ^ 30 = 3 then -quarterSine (quadrantPos phi)
      else quarterSine (quadrantPos phi) := by
  have hphi := phi.isLt
  have hquad : phi.toNat / 256 / 2 ^ 22 = phi.toNat / 2 ^ 30 := by omega
  have hneg : 2 ≤ phi.toNat / 2 ^ 30 ↔ phi.toNat / 2 ^ 30 = 2 ∨ phi.toNat / 2 ^ 30 = 3 := by omega
  have hmirror : phi.toNat / 2 ^ 30 % 2 = 1 ↔ phi.toNat / 2 ^ 30 = 1 ∨ phi.toNat / 2 ^ 30 = 3 := by omega
  rw [sine_eq]
  simp only [hquad, hneg, hmirror]
  rfl

/-- The quarter sine with its end told by the position. -/
theorem quarterSine_of_le {pos : Nat} (h : pos ≤ 2 ^ 22) :
    quarterSine pos =
      if pos = 2 ^ 22 then (sineEntry 256 : Int)
      else sineEntry (pos / 2 ^ 14)
        + ((sineEntry (pos / 2 ^ 14 + 1) : Int) - sineEntry (pos / 2 ^ 14)) * (pos % 2 ^ 14 : Nat) / 2 ^ 14 := by
  rw [quarterSine_eq]
  simp only [show pos / 2 ^ 14 = 256 ↔ pos = 2 ^ 22 by omega]
  rfl

theorem engineStep_frame_legal {P : Params} {idle : Bool} {s t : State} (h : engineStep P idle s = .next t) :
    t.frame.Legal := by
  obtain ⟨u, -, hstep⟩ := engineStep_next P idle s
  rw [hstep] at h
  cases h
  exact sampleStep_frame_legal P idle u

/-- Settles O23: table T over the real numbers, the quadrants, the extremes, and the frame that a step leaves. -/
theorem waveformRange : Obligations.WaveformRange := by
  refine ⟨fun _ hk => sineEntry_eq_floor hk, fun phi => ?_, sine_range, pulse_cases, sine_eq_max_iff, sine_eq_min_iff,
    fun _ _ _ _ h => ?_⟩
  · rw [sine_eq_quarterSine, quarterSine_of_le (quadrantPos_le phi)]
    rfl
  · have hframe := engineStep_frame_legal h
    exact ⟨hframe.out0, hframe.out1⟩

/-! ### Pulse (R425) -/

/-- The comparison of the upper half of the phase with the width, on the whole phase. -/
theorem pulse_eq (phi : Word) (pw : Nat) : pulse phi pw = if phi.toNat < pw * 65536 then 32767 else -32767 := by
  rw [pulse, Nat.shiftRight_eq_div_pow]
  simp only [Nat.div_lt_iff_lt_mul (show 0 < 2 ^ 16 by decide)]
  rfl

/-- Settles O27: the clauses are the two branches of the comparison of the whole phase with the width. -/
theorem pulseIsHighForItsWidth : Obligations.PulseIsHighForItsWidth := by
  intro phi pw
  rw [pulse_eq]
  split <;> omega

/-! ### Who writes a phase (R428) -/

theorem latchError_phase (e : CmdError) (w : Word) (s : State) : (latchError e w s).regs.phase = s.regs.phase := by
  obtain ⟨_, heq⟩ | ⟨_, heq⟩ := latchError_cases e w s
  · rw [heq]
  · rw [heq]
    rfl

theorem Regs.write_phase (r : Regs) (reg : Reg) (v : Int) : (r.write reg v).phase = r.phase := by
  cases reg with
  | pwb side o => cases side <;> rfl
  | _ => rfl

/-- The phases are read-only to WREG (R496). -/
theorem writeRegister_phase (index : BitVec 8) (data : BitVec 20) (s : State) :
    (writeRegister index data s).regs.phase = s.regs.phase := by
  obtain ⟨e, heq⟩ | ⟨_, heq⟩ | ⟨_, heq⟩ | ⟨reg, row, _, _, _, _, heq⟩ := writeRegister_cases index data s
  · rw [heq, latchError_phase]
  · rw [heq]
    rfl
  · rw [heq]
  · rw [heq]
    exact s.regs.write_phase reg _

theorem noteOffAction_phase (note : BitVec 7) (s : State) : (noteOffAction note s).regs.phase = s.regs.phase := by
  rw [noteOffAction_eq]
  rfl

theorem soundNote_phase {s : State} (h : s.regs.nrst = false) (side : Bool) (note vel : BitVec 7) :
    (soundNote side note vel s).regs.phase = s.regs.phase := by
  rw [soundNote_eq, h]
  rfl

/-- All that a command can do to the phases. -/
theorem exec_phase_cases {i : Instr} {s t : State} (h : exec i s = .next t) :
    t.regs.phase = s.regs.phase ∨ (∃ pmask smask, i = .phrst pmask smask) ∨ i = .sreset ∨
      (s.regs.nrst = true ∧ ∃ side note vel, i = .noteOn side note vel ∧ vel ≠ 0) := by
  cases i with
  | nop =>
    cases h
    exact .inl rfl
  | noteOn side note vel =>
    cases h
    by_cases hvel : vel = 0
    · rw [if_pos hvel]
      exact .inl (noteOffAction_phase note s)
    · rw [if_neg hvel]
      cases hnrst : s.regs.nrst with
      | false => exact .inl (soundNote_phase hnrst side note vel)
      | true => exact .inr (.inr (.inr ⟨rfl, side, note, vel, rfl, hvel⟩))
  | noteOff note =>
    cases h
    exact .inl (noteOffAction_phase note s)
  | bend bval =>
    cases h
    exact .inl rfl
  | wreg index data =>
    cases h
    exact .inl (writeRegister_phase index data s)
  | phrst pmask smask => exact .inr (.inl ⟨pmask, smask, rfl⟩)
  | sreset => exact .inr (.inr (.inl rfl))

theorem sampleStep_phase_of_inactive (P : Params) (idle : Bool) {s : State} (h : s.regs.active = false) :
    (sampleStep P idle s).regs.phase = s.regs.phase := by
  simp [sampleStep, computeSample, h, endRelease_eq]

/-- Settles O50: a command outside the list and an inactive sample keep the phases. -/
theorem phaseWriters : Obligations.PhaseWriters :=
  ⟨fun _ _ _ h hne => (exec_phase_cases h).resolve_left hne, fun P idle _ hne =>
    Bool.of_not_eq_false fun hactive => hne (sampleStep_phase_of_inactive P idle hactive)⟩

end Sys2Proof.Machine
end

section
/-! SUPPORT. Proofs about the sample step of 42_sample_step.md: silence and the end of the release (O14, O17, O54); the
two waveforms of SUB mode (O15); the two channels of FM mode, in either order (O16, O20); the bounds of the FM factors
(O21, O22); and who writes CTRL (O53). -/

namespace Sys2Proof.Machine

/-! ### The sample in the step (R440) -/

@[simp] theorem sampleStep_regs_phase (P : Params) (idle : Bool) (s : State) :
    (sampleStep P idle s).regs.phase = (computeSample P s.regs).regs.phase := by
  simp [sampleStep, endRelease_eq]

@[simp] theorem sampleStep_regs_prev (P : Params) (idle : Bool) (s : State) :
    (sampleStep P idle s).regs.prev = (computeSample P s.regs).regs.prev := by
  simp [sampleStep, endRelease_eq]

@[simp] theorem sampleStep_out0 (P : Params) (idle : Bool) (s : State) :
    (sampleStep P idle s).frame.out0 = (computeSample P s.regs).out0 := rfl
@[simp] theorem sampleStep_out1 (P : Params) (idle : Bool) (s : State) :
    (sampleStep P idle s).frame.out1 = (computeSample P s.regs).out1 := rfl

/-- What the end of the release leaves of the voice bits (R448). -/
theorem sampleStep_voice_bits (P : Params) (idle : Bool) (s : State) :
    (sampleStep P idle s).regs.active = (s.regs.active && (s.regs.gate || !idle)) ∧
      (sampleStep P idle s).regs.gate = s.regs.gate := by
  obtain ⟨phase, prev, hregs⟩ := sampleStep_regs P idle s
  rw [hregs]
  exact ⟨rfl, rfl⟩

theorem computeSample_of_inactive (P : Params) {r : Regs} (h : r.active = false) : computeSample P r = ⟨r, 0, 0⟩ := by
  simp [computeSample, h]

theorem computeSample_of_fmMode (P : Params) {r : Regs} (hactive : r.active = true) (hmode : r.fmMode = true) :
    computeSample P r = fmStep (ftwAll P r) r := by
  simp [computeSample, hactive, hmode]

theorem sampleStep_regs_of_inactive (P : Params) (idle : Bool) {s : State} (h : s.regs.active = false) :
    (sampleStep P idle s).regs = s.regs := by
  simp [sampleStep, computeSample_of_inactive P h, endRelease, h]

/-- Settles O14: an inactive sample is (0, 0) and leaves its registers, and no release ends. -/
theorem inactiveStepIsSilent : Obligations.InactiveStepIsSilent := by
  intro P idle s u hu hinactive
  refine ⟨_, engineStep_of_atBoundary hu P idle, ?_, ?_, sampleStep_regs_of_inactive P idle hinactive, rfl⟩
  · rw [sampleStep_out0, computeSample_of_inactive P hinactive]
  · rw [sampleStep_out1, computeSample_of_inactive P hinactive]

/-- Settles O17: the end of the release comes after the sample and writes ACTIVE alone. -/
theorem releaseEndsOnIdle : Obligations.ReleaseEndsOnIdle := by
  intro P idle s u hu
  obtain ⟨hactive, hgate⟩ := sampleStep_voice_bits P idle u
  exact ⟨_, engineStep_of_atBoundary hu P idle, hactive, hgate, rfl, rfl⟩

/-! ### A note that is on and off in one drain (R712) -/

/-- At a block boundary with two commands queued, the drain performs the one and then the other (R204). -/
theorem atBoundary_of_pair {s t u : State} {i j : Instr} (hblk : s.blkpos = 0) (hq : s.q = [encode i, encode j])
    (hfirst : exec i s = .next t) (hsecond : exec j t = .next u) : atBoundary s = .next { u with q := [] } := by
  simp [atBoundary, drain, applyAll, applyWord, decode_encode, hblk, hq, hfirst, hsecond]

/-- The note-off of the note that has just been sounded lowers GATE and leaves ACTIVE (R470, R473). -/
theorem noteOffAction_soundNote_voice_bits (side : Bool) (note vel : BitVec 7) (s : State) :
    (noteOffAction note (soundNote side note vel s)).regs.gate = false ∧
      (noteOffAction note (soundNote side note vel s)).regs.active = true := by
  rw [noteOffAction_eq, soundNote_eq]
  simp

/-- Settles O54: the drain leaves GATE 0 and ACTIVE 1, and the sample ends the release where the envelope is idle. -/
theorem noteOnAndOffInOneDrain : Obligations.NoteOnAndOffInOneDrain := by
  intro P idle side note vel s hvel hblk hq
  have hon : exec (.noteOn side note vel) s = .next (soundNote side note vel s) := by
    simp only [exec, execNoteOn, if_neg hvel]
  have hdrained := atBoundary_of_pair hblk hq hon rfl
  obtain ⟨hgate, hactive⟩ := noteOffAction_soundNote_voice_bits side note vel s
  refine ⟨_, engineStep_of_atBoundary hdrained P idle, hgate, hactive, ?_⟩
  obtain ⟨hactive', hgate'⟩ := sampleStep_voice_bits P idle
    { noteOffAction note (soundNote side note vel s) with q := [] }
  rw [hactive', hgate']
  simp [hgate, hactive]

/-! ### SUB mode (R442) -/

/-- The WAVE field of an oscillator as a number (R102). -/
theorem waveOf_toNat (ctrl : BitVec 10) (o : Osc) : (waveOf ctrl o).toNat = ctrl.toNat / 2 ^ (6 + 2 * o.val) % 4 := by
  match o with
  | 0 => simp [waveOf, BitVec.extractLsb'_toNat, Nat.shiftRight_eq_div_pow]
  | 1 => simp [waveOf, BitVec.extractLsb'_toNat, Nat.shiftRight_eq_div_pow]

theorem waveform_waveOf (ctrl : BitVec 10) (o : Osc) (phi : Word) (pw : Nat) :
    waveform (waveOf ctrl o) phi pw =
      if ctrl.toNat / 2 ^ (6 + 2 * o.val) % 4 = 0 then sine phi else pulse phi pw := by
  simp only [waveform, BitVec.toNat_eq, waveOf_toNat]
  rfl

/-- A SUB step leaves the phases of S2 and S3 (R442). -/
theorem subStep_phase_get_of_unused (ftw : Four Word) (r : Regs) {n : Slot} (h : 2 ≤ n.val) :
    (subStep ftw r).regs.phase.get n = r.phase.get n := by
  have h0 : (0 : Slot) ≠ n := by rintro rfl; simp at h
  have h1 : (1 : Slot) ≠ n := by rintro rfl; simp at h
  simp only [subStep, Regs.advance_phase_get, if_neg h0, if_neg h1]

theorem subStep_prev (ftw : Four Word) (r : Regs) : (subStep ftw r).regs.prev = r.prev := rfl

/-- Settles O15: the two samples by the WAVE fields, the phases slot by slot, and the frame of every sample. -/
theorem subModeStep : Obligations.SubModeStep := by
  intro P idle s u hu hactive hmode
  have hsample := computeSample_of_subMode P hactive hmode
  refine ⟨_, engineStep_of_atBoundary hu P idle, ?_, ?_, fun n => ?_, ?_, sampleStep_frame P idle u⟩
  · rw [sampleStep_out0, hsample]
    exact waveform_waveOf u.regs.ctrl 0 _ _
  · rw [sampleStep_out1, hsample]
    exact waveform_waveOf u.regs.ctrl 1 _ _
  · rw [sampleStep_regs_phase, hsample]
    have hused : n = 0 ∨ n = 1 ↔ n.val < 2 := by
      rw [Fin.ext_iff, Fin.ext_iff]
      simp only [Fin.val_zero, Fin.val_one]
      omega
    by_cases hn : n.val < 2
    · rw [if_pos (hused.mpr hn), subStep_phase_get _ _ hn, ftwAll_get]
    · rw [if_neg (mt hused.mp hn), subStep_phase_get_of_unused _ _ (Nat.le_of_not_lt hn)]
  · rw [sampleStep_regs_prev, hsample, subStep_prev]

/-! ### The FM factors (R444, R446) -/

/-- A product with a gain of at most 1.0, shifted right by 15 with truncation toward minus infinity, is no larger than
the value it scales: truncation does not pass the integer `-|v|`. -/
theorem abs_asr_mul_le {v g : Int} (h : |g| ≤ 32768) : |asr (v * g) 15| ≤ |v| := by
  have hprod : |v * g| ≤ |v| * 2 ^ 15 := by
    rw [abs_mul]
    exact mul_le_mul_of_nonneg_left h (abs_nonneg v)
  obtain ⟨hlow, hhigh⟩ := abs_le.mp hprod
  refine abs_le.mpr ⟨asr_le_iff.mpr ?_, Int.lt_add_one_iff.mp (asr_lt_iff.mpr ?_)⟩ <;> omega

/-- Settles O21: each of the three products has a gain of at most 1.0. -/
theorem feedbackTermIsContractive : Obligations.FeedbackTermIsContractive := by
  intro src fb nds asym hfb₁ hfb₂ hnds₁ hnds₂ hasym₁ hasym₂
  calc |feedbackTerm src fb nds asym|
      ≤ |asr (asr (src * fb) 15 * nds) 15| := abs_asr_mul_le (abs_le.mpr (by omega))
    _ ≤ |asr (src * fb) 15| := abs_asr_mul_le (abs_le.mpr (by omega))
    _ ≤ |src| := abs_asr_mul_le (abs_le.mpr (by omega))

/-- Scaling a value that is not negative by a gain of at most 1.0 keeps it between 0 and what it was. -/
theorem asr_mul_gain_range {v g : Int} (hv : 0 ≤ v) (hg : 0 ≤ g) (hg' : g ≤ 32768) :
    0 ≤ asr (v * g) 15 ∧ asr (v * g) 15 ≤ v := by
  have habs := abs_asr_mul_le (v := v) (abs_le.mpr ⟨by omega, hg'⟩)
  rw [abs_of_nonneg hv] at habs
  exact ⟨asr_le_iff.mpr (by simpa using mul_nonneg hv hg), (abs_le.mp habs).2⟩

/-- The blend takes at most VBDEPTH away from 1.0 (R444). -/
theorem velocityBlend_range {r : Regs} (h : r.vbdepth.toNat ≤ 32768) :
    0 ≤ velocityBlend r ∧ velocityBlend r ≤ 32768 := by
  have hvel := r.vel.isLt
  have hlow : 0 ≤ (r.vbdepth.toNat : Int) * (127 - r.vel.toNat) := mul_nonneg (by omega) (by omega)
  have hhigh : (r.vbdepth.toNat : Int) * (127 - r.vel.toNat) ≤ 32768 * 127 :=
    mul_le_mul (by omega) (by omega) (by omega) (by decide)
  unfold velocityBlend
  omega

theorem velocityBlend_of_full_velocity {r : Regs} (h : r.vel = 127) : velocityBlend r = 32768 := by
  simp [velocityBlend, h]

/-- MODIDX is scaled by two gains of at most 1.0 (R444). -/
theorem fmFactors_mi_range {r : Regs} (h : r.Legal) : 0 ≤ (fmFactors r).mi ∧ (fmFactors r).mi ≤ 16384 := by
  obtain ⟨hvb₀, hvb₁⟩ := velocityBlend_range h.vbdepth
  have hnds : notedScaling r ≤ 32768 := Int.ofNat_le.mpr (h.nds _)
  have hmodidx := h.modidx
  obtain ⟨hblend₀, hblend₁⟩ := asr_mul_gain_range (Int.natCast_nonneg r.modidx.toNat) hvb₀ hvb₁
  obtain ⟨hmi₀, hmi₁⟩ := asr_mul_gain_range (g := notedScaling r) hblend₀ (Int.natCast_nonneg _) hnds
  exact ⟨hmi₀, hmi₁.trans (by omega)⟩

/-- Settles O22: the range of the blend, its end at full velocity, and the range of the index it scales. -/
theorem modulationIndexIsBounded : Obligations.ModulationIndexIsBounded := by
  intro r h
  obtain ⟨hlow, hhigh⟩ := velocityBlend_range h.vbdepth
  exact ⟨hlow, hhigh, velocityBlend_of_full_velocity, fmFactors_mi_range h⟩

/-! ### The slots of a channel (R443) -/

theorem carrierSlot_val (c : Chan) : (carrierSlot c).val = 2 * c.val := by
  fin_cases c <;> rfl

theorem modulatorSlot_val (c : Chan) : (modulatorSlot c).val = 2 * c.val + 1 := by
  fin_cases c <;> rfl

theorem otherChan_eq (c : Chan) : otherChan c = 1 - c := by
  fin_cases c <;> rfl

@[simp] theorem carrierSlot_inj {c d : Chan} : carrierSlot c = carrierSlot d ↔ c = d := by
  simp only [Fin.ext_iff, carrierSlot_val]
  omega

@[simp] theorem modulatorSlot_inj {c d : Chan} : modulatorSlot c = modulatorSlot d ↔ c = d := by
  simp only [Fin.ext_iff, modulatorSlot_val]
  omega

@[simp] theorem carrierSlot_ne_modulatorSlot (c d : Chan) : carrierSlot c ≠ modulatorSlot d := by
  simp only [ne_eq, Fin.ext_iff, carrierSlot_val, modulatorSlot_val]
  omega

/-- Every slot is the carrier or the modulator of a channel. -/
theorem slot_cases (n : Slot) : ∃ c, n = carrierSlot c ∨ n = modulatorSlot c := by
  match n with
  | 0 => exact ⟨0, .inl rfl⟩
  | 1 => exact ⟨0, .inr rfl⟩
  | 2 => exact ⟨1, .inl rfl⟩
  | 3 => exact ⟨1, .inr rfl⟩

/-! ### The two channels of an FM step, in either order (R451) -/

/-- `pm`, what a channel adds to its carrier's phase (R447). -/
def modulation (k : FmFactors) (r : Regs) (c : Chan) : Word := mod32 ((fmOut k r c).s * k.mi * 32)

/-- A channel moves its own carrier, which keeps the modulation with PMACC = 1, and leaves the other's (R447). -/
theorem fmPhases_carrier (k : FmFactors) (ftw : Four Word) (r : Regs) (c d : Chan) :
    (fmPhases k ftw r c).phase.get (carrierSlot d) =
      if c = d then
        r.phase.get (carrierSlot c) + ftw.get (carrierSlot c) + (if r.pmacc then modulation k r c else 0)
      else r.phase.get (carrierSlot d) := by
  have hne : modulatorSlot c ≠ carrierSlot d := (carrierSlot_ne_modulatorSlot d c).symm
  by_cases h : c = d
  · subst h
    cases hpmacc : r.pmacc <;>
      simp [fmPhases, modulation, Regs.advance_phase_get, hne, hpmacc, add_right_comm]
  · simp [fmPhases, Regs.advance_phase_get, Four.get_set, hne, h]

/-- A channel advances its own modulator and leaves the other's (R447). -/
theorem fmPhases_modulator (k : FmFactors) (ftw : Four Word) (r : Regs) (c d : Chan) :
    (fmPhases k ftw r c).phase.get (modulatorSlot d) =
      if c = d then r.phase.get (modulatorSlot c) + ftw.get (modulatorSlot c)
      else r.phase.get (modulatorSlot d) := by
  by_cases h : c = d <;> simp [fmPhases, Regs.advance_phase_get, Four.get_set, h]

/-- A channel reads its own slots and the feedback memory, which the other channel leaves. -/
theorem fmOut_fmPhases (k : FmFactors) (ftw : Four Word) (r : Regs) {c d : Chan} (h : c ≠ d) :
    fmOut k (fmPhases k ftw r c) d = fmOut k r d := by
  have hcarrier := fmPhases_carrier k ftw r c d
  have hmodulator := fmPhases_modulator k ftw r c d
  obtain ⟨phase, hregs⟩ := fmPhases_eq k ftw r c
  rw [if_neg h, hregs] at hcarrier hmodulator
  rw [hregs]
  simp only [fmOut, hcarrier, hmodulator]
  rfl

/-- The phases that both channels leave do not tell which went first. -/
theorem fmChannels_phase_get (k : FmFactors) (ftw : Four Word) (r : Regs) {c d : Chan} (h : c ≠ d) (e : Chan) :
    (fmChannels k ftw r c d).phase.get (carrierSlot e) =
        r.phase.get (carrierSlot e) + ftw.get (carrierSlot e) + (if r.pmacc then modulation k r e else 0) ∧
      (fmChannels k ftw r c d).phase.get (modulatorSlot e) =
        r.phase.get (modulatorSlot e) + ftw.get (modulatorSlot e) := by
  have hmodulation : modulation k (fmPhases k ftw r c) d = modulation k r d := by
    rw [modulation, modulation, fmOut_fmPhases k ftw r h]
  have hpmacc : (fmPhases k ftw r c).pmacc = r.pmacc := rfl
  rw [fmChannels, fmPhases_carrier, fmPhases_modulator]
  by_cases he : d = e
  · subst he
    simp [fmPhases_carrier, fmPhases_modulator, h, hmodulation, hpmacc]
  · have hthird : ∀ c d e : Chan, c ≠ d → d ≠ e → c = e := by decide
    obtain rfl := hthird c d e h he
    simp [fmPhases_carrier, fmPhases_modulator, he]

theorem fmChannels_comm (k : FmFactors) (ftw : Four Word) (r : Regs) {c d : Chan} (h : c ≠ d) :
    fmChannels k ftw r c d = fmChannels k ftw r d c := by
  have hphase : (fmChannels k ftw r c d).phase = (fmChannels k ftw r d c).phase := by
    apply Four.ext_get
    intro n
    obtain ⟨e, rfl | rfl⟩ := slot_cases n
    · rw [(fmChannels_phase_get k ftw r h e).1, (fmChannels_phase_get k ftw r h.symm e).1]
    · rw [(fmChannels_phase_get k ftw r h e).2, (fmChannels_phase_get k ftw r h.symm e).2]
  obtain ⟨phase, hregs⟩ := fmChannels_eq k ftw r c d
  obtain ⟨phase', hregs'⟩ := fmChannels_eq k ftw r d c
  rw [hregs, hregs'] at hphase ⊢
  exact congrArg (fun p => { r with phase := p }) hphase

/-- Settles O20: each channel finds its inputs as they were, so the order shows in no phase and no sample. -/
theorem channelOrderDoesNotMatter : Obligations.ChannelOrderDoesNotMatter :=
  fun k ftw r => ⟨fmChannels_comm k ftw r (by decide), fmOut_fmPhases k ftw r (by decide),
    fmOut_fmPhases k ftw r (by decide)⟩

/-! ### The FM step (R444 to R449) -/

theorem asr_fifteen (v : Int) : asr v 15 = v / 32768 := rfl

/-- The modulating signal with floor divisions, max and min (R445, R446). -/
theorem fmOut_s (k : FmFactors) (r : Regs) (c : Chan) :
    (fmOut k r c).s = max (-32767) (min 32767 (sine (r.phase.get (modulatorSlot c)) +
      (r.prev.get (if r.xfb then 1 - c else c)).toInt * r.fb.toInt / 32768 * k.nds / 32768
        * (r.asym.get c).toNat / 32768)) := by
  simp only [fmOut, feedbackTerm, feedbackSource, asr_fifteen, otherChan_eq]
  exact clamp_eq_max_min (by decide)

/-- The feedback value that is stored is Q1.15, so its 16 bits keep it (R449). -/
theorem storedModulator_toInt (k : FmFactors) (r r' : Regs) (c : Chan) :
    (storedModulator r (fmOut k r' c)).toInt = if r.fbsrc then (fmOut k r' c).m else (fmOut k r' c).s := by
  have hm : -32767 ≤ (fmOut k r' c).m ∧ (fmOut k r' c).m ≤ 32767 := sine_range _
  have hs : -32767 ≤ (fmOut k r' c).s ∧ (fmOut k r' c).s ≤ 32767 := clamp_bounds (by decide)
  apply toInt_ofInt_of_range <;> split <;> omega

/-- The feedback memory after an FM step: each channel's value from the registers of before the step (R449). -/
theorem fmStep_prev_get (ftw : Four Word) (r : Regs) (c : Chan) :
    (fmStep ftw r).regs.prev.get c = storedModulator r (fmOut (fmFactors r) r c) := by
  match c with
  | 0 => rfl
  | 1 =>
    rw [← fmOut_fmPhases (fmFactors r) ftw r (c := 0) (d := 1) (by decide)]
    rfl

/-- The samples of an FM step: each channel's from the registers of before the step (R447). -/
theorem fmStep_out (ftw : Four Word) (r : Regs) (c : Chan) :
    (if c = 0 then (fmStep ftw r).out0 else (fmStep ftw r).out1) = (fmOut (fmFactors r) r c).y := by
  match c with
  | 0 => rfl
  | 1 =>
    rw [← fmOut_fmPhases (fmFactors r) ftw r (c := 0) (d := 1) (by decide)]
    rfl

theorem fmStep_phase (ftw : Four Word) (r : Regs) :
    (fmStep ftw r).regs.phase = (fmChannels (fmFactors r) ftw r 0 1).phase := rfl

/-- Settles O16: the samples, phases and feedback values of an FM step, channel by channel. -/
theorem fmModeStep : Obligations.FmModeStep := by
  intro P idle s u hu hactive hmode _
  refine ⟨_, engineStep_of_atBoundary hu P idle, sampleStep_frame P idle u, ?_⟩
  intro c cs ms hcs hms nds vb mi m src t3 sg pm
  obtain rfl : cs = carrierSlot c := Fin.ext (hcs.trans (carrierSlot_val c).symm)
  obtain rfl : ms = modulatorSlot c := Fin.ext (hms.trans (modulatorSlot_val c).symm)
  have hsg : (fmOut (fmFactors u.regs) u.regs c).s = sg := fmOut_s _ _ _
  have hpm : modulation (fmFactors u.regs) u.regs c = pm := by
    rw [modulation, hsg]
    rfl
  obtain ⟨hcarrier, hmodulator⟩ :=
    fmChannels_phase_get (fmFactors u.regs) (ftwAll P u.regs) u.regs (c := 0) (d := 1) (by decide) c
  rw [sampleStep_out0, sampleStep_out1, sampleStep_regs_phase, sampleStep_regs_prev,
    computeSample_of_fmMode P hactive hmode, fmStep_out, fmStep_phase, hcarrier, hmodulator, fmStep_prev_get,
    storedModulator_toInt, hsg, hpm, ftwAll_get, ftwAll_get]
  refine ⟨?_, rfl, rfl, rfl⟩
  rw [← hpm]
  rfl

/-! ### Who writes CTRL (R452, R522, R717) -/

theorem latchError_ctrl (e : CmdError) (w : Word) (s : State) : (latchError e w s).regs.ctrl = s.regs.ctrl := by
  obtain ⟨_, heq⟩ | ⟨_, heq⟩ := latchError_cases e w s
  · rw [heq]
  · rw [heq]
    rfl

theorem Regs.write_ctrl {reg : Reg} (h : reg ≠ .ctrl) (r : Regs) (v : Int) : (r.write reg v).ctrl = r.ctrl := by
  cases reg with
  | ctrl => exact absurd rfl h
  | pwb side o => cases side <;> rfl
  | _ => rfl

/-- A WREG writes CTRL only at CTRL's index (R490). -/
theorem writeRegister_ctrl {index : BitVec 8} (h : index ≠ 0x00) (data : BitVec 20) (s : State) :
    (writeRegister index data s).regs.ctrl = s.regs.ctrl := by
  obtain ⟨e, heq⟩ | ⟨_, heq⟩ | ⟨_, heq⟩ | ⟨reg, row, hreg, _, _, _, heq⟩ := writeRegister_cases index data s
  · rw [heq, latchError_ctrl]
  · rw [heq]
    rfl
  · rw [heq]
  · rw [heq]
    refine Regs.write_ctrl ?_ s.regs _
    rintro rfl
    exact h ((regOf_ctrl_iff index).mp hreg)

/-- All that a command can do to CTRL. -/
theorem exec_ctrl_cases {i : Instr} {s t : State} (h : exec i s = .next t) :
    t.regs.ctrl = s.regs.ctrl ∨ i = .sreset ∨ ∃ data, i = .wreg 0x00 data := by
  cases i with
  | nop =>
    cases h
    exact .inl rfl
  | noteOn side note vel =>
    cases h
    split
    · exact .inl (by rw [noteOffAction_eq]; rfl)
    · exact .inl (by rw [soundNote_eq]; rfl)
  | noteOff note =>
    cases h
    exact .inl (by rw [noteOffAction_eq]; rfl)
  | bend bval =>
    cases h
    exact .inl rfl
  | wreg index data =>
    cases h
    by_cases hindex : index = 0x00
    · exact .inr (.inr ⟨data, by rw [hindex]⟩)
    · exact .inl (writeRegister_ctrl hindex data s)
  | phrst pmask smask =>
    cases h
    exact .inl rfl
  | sreset => exact .inr (.inl rfl)

theorem applyWord_ctrl_cases {w : Word} {s t : State} (h : applyWord w s = .next t) :
    t.regs.ctrl = s.regs.ctrl ∨ decode w = .instr .sreset ∨ ∃ data, decode w = .instr (.wreg 0x00 data) := by
  unfold applyWord at h
  split at h
  · rename_i i hdecode
    rw [hdecode]
    simpa using exec_ctrl_cases h
  · cases h
    exact .inl (latchError_ctrl _ w s)

/-! ### Where a register can change -/

/-- Words that leave what `f` reads of the registers, each by itself, leave it in a row. -/
theorem applyAll_keeps {α : Type} {f : Regs → α} {ws : List Word}
    (hword : ∀ w ∈ ws, ∀ s t, applyWord w s = .next t → f t.regs = f s.regs) {s t : State}
    (h : applyAll ws s = .next t) : f t.regs = f s.regs := by
  induction ws generalizing s with
  | nil =>
    cases h
    rfl
  | cons w ws ih =>
    obtain ⟨u, hu, ht⟩ := andThen_eq_next h
    calc f t.regs = f u.regs := ih (fun w hw => hword w (List.mem_cons_of_mem _ hw)) ht
      _ = f s.regs := hword w List.mem_cons_self s u hu

/-- What changes before the sample is changed by a queued word, at a block boundary (R204, R208). -/
theorem exists_word_of_atBoundary_changes {α : Type} {f : Regs → α} {s u : State} (h : atBoundary s = .next u)
    (hne : f u.regs ≠ f s.regs) :
    s.blkpos = 0 ∧ ∃ w ∈ s.q, ∃ v v', applyWord w v = .next v' ∧ f v'.regs ≠ f v.regs := by
  unfold atBoundary drain at h
  split at h
  · refine ⟨‹_›, ?_⟩
    obtain ⟨v, hv, hu⟩ := andThen_eq_next h
    cases hu
    by_contra hnone
    push Not at hnone
    exact hne (applyAll_keeps (t := v) hnone hv)
  · cases h
    exact absurd rfl hne

/-- The action that changes what `f` reads of the registers, where a sample leaves that, is a step of the ENGINE that
drains a word which changes it: a push and a read leave the registers (R203, R205). -/
theorem exists_word_of_step_changes {α : Type} {f : Regs → α}
    (hsample : ∀ P idle u, f (sampleStep P idle u).regs = f u.regs) {s t : State} (h : step s = .next t)
    (hne : f t.regs ≠ f s.regs) :
    EngineMoves s ∧ s.blkpos = 0 ∧ ∃ w ∈ s.q, ∃ v v', applyWord w v = .next v' ∧ f v'.regs ≠ f v.regs := by
  obtain hmoves | ⟨w, rest, _, _, he⟩ | ⟨i, rest, _, he⟩ | ⟨rest, _, _, he⟩ := step_cases s
  · refine ⟨hmoves, ?_⟩
    obtain ⟨script, rdData, he⟩ := hmoves
    obtain ⟨u, hu, hmove⟩ := engineMove_next { s with script := script, rdData := rdData }
    rw [he, hmove] at h
    cases h
    rw [hsample] at hne
    exact exists_word_of_atBoundary_changes
      (s := { s with script := script, rdData := rdData, draws := s.draws + 1 }) hu hne
  all_goals
    rw [he] at h
    cases h
    exact absurd rfl hne

/-- Settles O53: a step that changes CTRL drains a word that does, and only two commands do. -/
theorem modeSwitchesOnlyAtBoundary : Obligations.ModeSwitchesOnlyAtBoundary := by
  intro s t h hne
  have hsample : ∀ P idle u, (sampleStep P idle u).regs.ctrl = u.regs.ctrl := by
    intro P idle u
    obtain ⟨phase, prev, hregs⟩ := sampleStep_regs P idle u
    rw [hregs]
  obtain ⟨hmoves, hblk, w, hw, v, v', happly, hchange⟩ := exists_word_of_step_changes hsample h hne
  exact ⟨hmoves, hblk, w, hw, (applyWord_ctrl_cases happly).resolve_left hchange⟩

end Sys2Proof.Machine
end

section
/-! SUPPORT. Proofs about the voice commands of 43_voice_commands.md: NOTE_OFF and the NOTE_ON that is one (O37, O38),
BEND (O39), and who writes the effective pulse widths (O51). -/

namespace Sys2Proof.Machine

/-! ### Releasing a note (R471, R473) -/

/-- Settles O37: the branch of NOTE_ON for velocity 0 is the action of NOTE_OFF. -/
theorem noteOnVelocityZeroIsNoteOff : Obligations.NoteOnVelocityZeroIsNoteOff := by
  intro side note s
  simp only [exec, execNoteOn, execNoteOff, if_true]

/-- An 8-bit NOTE holds an operand exactly if its signed value is that operand: -1 is the value of none. -/
theorem eq_noteOperand_iff (held : BitVec 8) (note : BitVec 7) :
    held = note.setWidth 8 ↔ held.toInt = note.toNat := by
  rw [← noteOperand_toInt, BitVec.toInt_inj]

/-- Settles O38: the note-off compares bits, which is to compare the signed value of NOTE with the operand. -/
theorem noteOffReleasesAssignedNote : Obligations.NoteOffReleasesAssignedNote := by
  intro note s
  rw [exec, execNoteOff, noteOffAction_eq]
  simp only [eq_noteOperand_iff, bne, beq_eq_decide]

/-! ### BEND (R474) -/

/-- The value that BEND stores fits its 15 bits. -/
theorem bendOperand_toInt (bval : BitVec 15) :
    (BitVec.ofInt 15 (clamp (sext 15 bval) (-8192) 8192)).toInt = max (-8192) (min 8192 bval.toInt) := by
  have hsext : sext 15 bval = bval.toInt := by rw [sext, BitVec.setWidth_eq]
  rw [hsext, clamp_eq_max_min (by decide), toInt_ofInt_of_range (by omega) (by omega)]

/-- On the read port BEND shows in its register and, through the pitch, in the tuning words. -/
theorem withBend_changesOnly (s : State) (bend : BitVec 15) :
    ChangesOnly bendChanges s (s.withRegs { s.regs with bend := bend }) := by
  refine ⟨fun P reg hreg => ?_, ⟨rfl, rfl, rfl, rfl, rfl, rfl⟩⟩
  cases reg with
  | bend | ftw _ => cases hreg
  | _ => rfl

/-- Settles O39, from the stored value and the frame of a write of BEND. -/
theorem bendStoresClampedValue : Obligations.BendStoresClampedValue :=
  fun bval s => ⟨_, rfl, bendOperand_toInt bval, withBend_changesOnly s _⟩

/-! ### Who writes PWEFF (R472, R496, R713) -/

section
variable {α : Type} {f : Regs → α}
  (hlatch : ∀ r err errcode errcmd, f { r with err := err, errcode := errcode, errcmd := errcmd } = f r)
include hlatch

/-- A raised error leaves all that does not depend on the error latch (R603). -/
theorem latchError_keeps_of_latch (e : CmdError) (w : Word) (s : State) :
    f (latchError e w s).regs = f s.regs := by
  obtain ⟨_, heq⟩ | ⟨_, heq⟩ := latchError_cases e w s
  · rw [heq]
  · rw [heq]
    exact hlatch s.regs _ _ _

/-- A WREG leaves all that depends neither on the error latch nor on a register of R493's table (R490, R495). -/
theorem writeRegister_keeps_of_latch_of_write (hwrite : ∀ (r : Regs) reg v, f (r.write reg v) = f r)
    (index : BitVec 8) (data : BitVec 20) (s : State) : f (writeRegister index data s).regs = f s.regs := by
  obtain ⟨e, heq⟩ | ⟨_, heq⟩ | ⟨_, heq⟩ | ⟨reg, _, _, _, _, _, heq⟩ := writeRegister_cases index data s
  · rw [heq]
    exact latchError_keeps_of_latch hlatch e _ s
  · rw [heq]
    exact hlatch s.regs _ _ _
  · rw [heq]
  · rw [heq]
    exact hwrite s.regs reg _

end

theorem Regs.write_pweff (r : Regs) (reg : Reg) (v : Int) : (r.write reg v).pweff = r.pweff := by
  cases reg with
  | pwb side o => cases side <;> rfl
  | _ => rfl

theorem noteOffAction_pweff (note : BitVec 7) (s : State) : (noteOffAction note s).regs.pweff = s.regs.pweff := by
  rw [noteOffAction_eq]
  rfl

/-- All that a command can do to the effective pulse widths. -/
theorem exec_pweff_cases {i : Instr} {s t : State} (h : exec i s = .next t) :
    t.regs.pweff = s.regs.pweff ∨ i = .sreset ∨ ∃ side note vel, i = .noteOn side note vel ∧ vel ≠ 0 := by
  cases i with
  | nop =>
    cases h
    exact .inl rfl
  | noteOn side note vel =>
    cases h
    by_cases hvel : vel = 0
    · rw [if_pos hvel]
      exact .inl (noteOffAction_pweff note s)
    · exact .inr (.inr ⟨side, note, vel, rfl, hvel⟩)
  | noteOff note =>
    cases h
    exact .inl (noteOffAction_pweff note s)
  | bend bval =>
    cases h
    exact .inl rfl
  | wreg index data =>
    cases h
    exact .inl (writeRegister_keeps_of_latch_of_write (f := Regs.pweff) (fun _ _ _ _ => rfl) Regs.write_pweff
      index data s)
  | phrst pmask smask =>
    cases h
    exact .inl rfl
  | sreset => exact .inr (.inl rfl)

theorem sampleStep_pweff (P : Params) (idle : Bool) (s : State) :
    (sampleStep P idle s).regs.pweff = s.regs.pweff := by
  obtain ⟨phase, prev, hregs⟩ := sampleStep_regs P idle s
  rw [hregs]

/-- Settles O51: every other command and every sample leaves the widths. -/
theorem pulseWidthWriters : Obligations.PulseWidthWriters :=
  ⟨fun _ _ _ h hne => (exec_pweff_cases h).resolve_left hne, sampleStep_pweff⟩

end Sys2Proof.Machine
end

section
/-! SUPPORT. Proofs about the register commands of 44_register_commands.md: which WREG is refused with which code (O41),
the STATUS write (O42), and what an accepted WREG stores, reads back as and leaves (O40). -/

namespace Sys2Proof.Machine

/-! ### Refusals (R490, R491, R494, R496, R601, R602) -/

/-- The three conditions of an accepted WREG (R308). -/
theorem wreg_wellFormed_iff (index : BitVec 8) (data : BitVec 20) :
    (Instr.wreg index data).wellFormed = true ↔
      wregIndexAccepted index.toNat = true ∧ data.toNat < 2 ^ wregWidth index.toNat ∧
        (index.toNat = 0x00 → wavesAccepted data.toNat = true) := by
  simp [Instr.wellFormed, and_assoc, imp_iff_not_or]

/-- The indices a WREG may name are those that are neither read-only nor unmapped (R126, R493, R496). -/
theorem wregIndexAccepted_iff (i : Nat) :
    wregIndexAccepted i = true ↔
      i ≤ 0x01 ∨ (0x05 ≤ i ∧ i ≤ 0x12) ∨ (0x18 ≤ i ∧ i ≤ 0x1B) ∨ 0x80 ≤ i := by
  simp [wregIndexAccepted, or_assoc]

theorem errorCode_injective {e e' : CmdError} (h : (errorCode e).toNat = (errorCode e').toNat) : e = e' := by
  cases e <;> cases e' <;> try rfl
  all_goals cases h

/-- A WREG that is not accepted latches the error whose number its index and DATA give. -/
theorem exec_wreg_of_errorNumber {index : BitVec 8} {data : BitVec 20} {e : CmdError}
    (hill : ¬(Instr.wreg index data).wellFormed = true)
    (hnumber : wregErrorNumber index.toNat data.toNat = (errorCode e).toNat) (s : State) :
    exec (.wreg index data) s = .next (latchError e (encode (.wreg index data)) s) := by
  obtain ⟨e', hcode, heq⟩ := writeRegister_of_illFormed (Bool.eq_false_iff.mpr hill) s
  rw [← errorCode_injective (hcode.trans hnumber), ← heq]
  rfl

/-- Settles O41: each refusal breaks a condition of `Instr.wellFormed`, and its number follows from index and DATA. -/
theorem wregRefusals : Obligations.WregRefusals := by
  intro index data s i d w readOnly unmapped
  have hindex (h : readOnly ∨ unmapped) : ¬(Instr.wreg index data).wellFormed = true := by
    intro hwf
    obtain ⟨haccepted, -⟩ := (wreg_wellFormed_iff index data).mp hwf
    rw [wregIndexAccepted_iff] at haccepted
    omega
  refine ⟨fun hro => ?_, fun hun => ?_, fun hro hun hwide => ?_, fun hzero hfits hwaves => ?_⟩
  · refine exec_wreg_of_errorNumber (hindex (.inl hro)) ?_ s
    rw [wregErrorNumber, if_neg (by omega), if_pos hro]
    rfl
  · refine exec_wreg_of_errorNumber (hindex (.inr hun)) ?_ s
    rw [wregErrorNumber, if_pos hun]
    rfl
  · refine exec_wreg_of_errorNumber (fun hwf => ?_) ?_ s
    · obtain ⟨-, hfits, -⟩ := (wreg_wellFormed_iff index data).mp hwf
      exact hfits.not_ge hwide
    · rw [wregErrorNumber, if_neg hun, if_neg hro, if_pos hwide]
      rfl
  · refine exec_wreg_of_errorNumber (fun hwf => ?_) ?_ s
    · obtain ⟨-, -, haccepted⟩ := (wreg_wellFormed_iff index data).mp hwf
      have hcodes := haccepted hzero
      simp only [wavesAccepted, Bool.and_eq_true, decide_eq_true_eq] at hcodes
      omega
    · have hnumber : wregErrorNumber 0x00 d = if 2 ^ 10 ≤ d then 2 else 5 :=
        wregErrorNumber_of_accepted (by decide) d
      show wregErrorNumber i d = 5
      rw [hzero, hnumber, if_neg (by omega)]

/-- Settles O42: DATA 0 and 1 fit the one writable bit of STATUS, and more DATA is refused for its width. -/
theorem statusWriteOneToClear : Obligations.StatusWriteOneToClear := by
  intro data s
  refine ⟨?_, ?_, fun hdata => exec_wreg_of_errorNumber (fun hwf => ?_) ?_ s⟩
  · rintro rfl
    rfl
  · rintro rfl
    rfl
  · obtain ⟨-, hfits, -⟩ := (wreg_wellFormed_iff 0x01 data).mp hwf
    exact hfits.not_ge hdata
  · have hnumber : wregErrorNumber 0x01 data.toNat = if 2 ^ 1 ≤ data.toNat then 2 else 5 :=
      wregErrorNumber_of_accepted (by decide) data.toNat
    exact hnumber.trans (if_pos hdata)

/-! ### The frame of a store (R490, R497) -/

/-- A tuning word that does not depend on a register is not changed by a write to it (R401, R405). -/
theorem ftwOf_write (P : Params) (r : Regs) {reg : Reg} {n : Slot} (h : tunes reg n = false) (v : Int) :
    ftwOf P (r.write reg v) n = ftwOf P r n := by
  cases reg with
  | bendrange => cases h
  | ctrl | ratio =>
    have hcarrier : isModulator n = false := h
    have hratio (r' : Regs) : ratioOf r' n = 256 := by simp [ratioOf, hcarrier]
    simp only [ftwOf, hratio]
    rfl
  | detune m =>
    have hne : m ≠ n := of_decide_eq_false h
    simp only [ftwOf, pitchOf, Regs.write, Four.get_set, if_neg hne]
    rfl
  | pwb side o => cases side <;> rfl
  | _ => rfl


theorem Regs.pwbAt_write (r : Regs) (side side' : Bool) (o o' : Osc) (v : Int) :
    (r.write (.pwb side o) v).pwbAt side' o' =
      if side = side' ∧ o = o' then BitVec.ofInt 16 v else r.pwbAt side' o' := by
  cases side <;> cases side' <;> simp [Regs.write, Regs.pwbAt, Two.get_set]

/-- A register that is not a tuning word reads as before after a write to another register. -/
theorem view_write_of_ne (P : Params) (s : State) {reg other : Reg} (hftw : ∀ n, other ≠ .ftw n)
    (hne : other ≠ reg) (v : Int) : view P (s.withRegs (s.regs.write reg v)) other = view P s other := by
  cases reg with
  | asym c =>
    cases other with
    | asym d =>
      have hcd : c ≠ d := fun h => hne (congrArg Reg.asym h.symm)
      simp [view, Regs.write, Two.get_set, hcd]
    | ftw n => exact absurd rfl (hftw n)
    | _ => rfl
  | pwb side o =>
    cases other with
    | pwb side' o' =>
      have hso : ¬(side = side' ∧ o = o') := fun ⟨h, h'⟩ => hne (by rw [h, h'])
      simp only [view, State.withRegs_regs, Regs.pwbAt_write, if_neg hso]
    | ftw n => exact absurd rfl (hftw n)
    | _ => cases side <;> rfl
  | detune m =>
    cases other with
    | detune n =>
      have hmn : m ≠ n := fun h => hne (congrArg Reg.detune h.symm)
      simp [view, Regs.write, Four.get_set, hmn]
    | ftw n => exact absurd rfl (hftw n)
    | _ => rfl
  | nds m =>
    cases other with
    | nds n =>
      have hmn : m ≠ n := fun h => hne (congrArg Reg.nds h.symm)
      simp only [view, State.withRegs_regs, Regs.ndsAt_write, if_neg hmn]
    | ftw n => exact absurd rfl (hftw n)
    | _ => rfl
  | ctrl | bendrange | ratio | modidx | fb | vbdepth | pwkt | pwref | pwvel =>
    cases other
    case ftw n => exact absurd rfl (hftw n)
    all_goals try rfl
    exact absurd rfl hne
  | _ => rfl

/-- The frame of a write to a register of R493's table. -/
theorem withWrite_changesOnly (s : State) (reg : Reg) (v : Int) :
    ChangesOnly (wregChanges reg) s (s.withRegs (s.regs.write reg v)) := by
  refine ⟨fun P other hother => ?_, ⟨rfl, rfl, rfl, rfl, rfl, rfl⟩⟩
  by_cases hftw : ∃ n, other = .ftw n
  · obtain ⟨n, rfl⟩ := hftw
    exact ftwOf_write P s.regs hother v
  · rw [not_exists] at hftw
    refine view_write_of_ne P s hftw ?_ v
    rintro rfl
    cases other with
    | ftw n => exact hftw n rfl
    | _ => simp [wregChanges] at hother

/-! ### The value that is stored and read back (R205, R491 to R493) -/

/-- The number that a register of a row of R493 shows on the read port (R205). -/
def WriteRow.shown (row : WriteRow) (v : BitVec row.width) : Int := if row.signed then v.toInt else v.toNat

theorem setWidth_eq_mod32 {w : Nat} (v : BitVec w) : v.setWidth 32 = mod32 v.toNat := by
  simp [mod32, BitVec.ofInt_natCast]

/-- A written register reads as what its row shows of the value. -/
theorem view_write_self (P : Params) (s : State) {reg : Reg} {row : WriteRow} (hrow : writeRow reg = some row)
    (v : Int) : view P (s.withRegs (s.regs.write reg v)) reg = mod32 (row.shown (BitVec.ofInt row.width v)) := by
  cases reg with
  | fb =>
    cases hrow
    rfl
  | detune n =>
    cases hrow
    simp [view, Regs.write, WriteRow.shown]
  | asym c =>
    cases hrow
    simp only [view, Regs.write, State.withRegs_regs, Two.get_set_self]
    exact setWidth_eq_mod32 _
  | pwb side o =>
    cases hrow
    simp only [view, State.withRegs_regs, Regs.pwbAt_write, and_self, if_true]
    exact setWidth_eq_mod32 _
  | nds n =>
    cases hrow
    simp only [view, State.withRegs_regs, Regs.ndsAt_write, if_true]
    exact setWidth_eq_mod32 _
  | ctrl | bendrange | ratio | modidx | vbdepth | pwkt | pwref | pwvel =>
    cases hrow
    exact setWidth_eq_mod32 _
  | _ => cases hrow

/-- The clamp of a row stays within the row's width (R493). -/
theorem bounds_within_width {reg : Reg} {row : WriteRow} (hrow : writeRow reg = some row) {lo hi : Int}
    (hbounds : row.bounds = some (lo, hi)) :
    lo ≤ hi ∧ if row.signed then -(2 ^ row.width) ≤ 2 * lo ∧ 2 * hi < 2 ^ row.width
      else 0 ≤ lo ∧ hi < 2 ^ row.width := by
  cases reg <;> cases hrow <;> cases hbounds <;> decide

/-- The width of a register holds the value that is stored there, so the register shows it (R491, R493). -/
theorem shown_stored {reg : Reg} {row : WriteRow} (hrow : writeRow reg = some row) {data : BitVec 20}
    (hfits : row.fits data = true) : row.shown (BitVec.ofInt row.width (row.stored data)) = row.stored data := by
  cases hbounds : row.bounds with
  | none =>
    have hstored : row.stored data = row.value data := by simp only [WriteRow.stored, hbounds]
    cases hsigned : row.signed with
    | false =>
      obtain ⟨hlo, hhi⟩ := value_range_of_fits hsigned hfits
      rw [hstored, WriteRow.shown, hsigned]
      exact toNat_ofInt_of_range hlo hhi
    | true =>
      simp [hstored, WriteRow.shown, WriteRow.value, hsigned, sext]
  | some bounds =>
    obtain ⟨hle, hwidth⟩ := bounds_within_width hrow hbounds
    obtain ⟨hlo, hhi⟩ := stored_bounds hbounds hle data
    cases hsigned : row.signed with
    | false =>
      simp only [hsigned] at hwidth
      rw [WriteRow.shown, hsigned]
      exact toNat_ofInt_of_range (hwidth.1.trans hlo) (hhi.trans_lt hwidth.2)
    | true =>
      simp only [hsigned] at hwidth
      rw [WriteRow.shown, hsigned]
      obtain ⟨h1, h2⟩ := hwidth
      exact toInt_ofInt_of_range (by omega) (by omega)

/-- The index of a register that WREG may write. -/
theorem indexOf_of_writable {index : BitVec 8} {reg : Reg} {row : WriteRow} (h : regOf index = some reg)
    (hrow : writeRow reg = some row) : indexOf reg = index := by
  have hagrees := indexAgrees_all ⟨index.toNat, index.isLt⟩
  have hstatus := ne_status_of_writeRow hrow
  simp only [indexAgrees, BitVec.ofNat_toNat, BitVec.setWidth_eq, h] at hagrees
  simp_all

/-- The two's-complement reading of a DATA that fits, written out (R8, R492). -/
theorem sext_of_lt {n : Nat} {data : BitVec 20} (h : data.toNat < 2 ^ (n + 1)) :
    sext (n + 1) data = if data.toNat < 2 ^ n then (data.toNat : Int) else data.toNat - 2 ^ (n + 1) := by
  have hdata : (data.setWidth (n + 1)).toNat = data.toNat := by
    rw [BitVec.toNat_setWidth, Nat.mod_eq_of_lt h]
  have hhalf : 2 * data.toNat < 2 ^ (n + 1) ↔ data.toNat < 2 ^ n := by omega
  rw [sext, BitVec.toInt_eq_toNat_cond, hdata]
  simp only [hhalf, Nat.cast_pow, Nat.cast_ofNat]

theorem clamp_zero_natCast (d hi : Nat) : clamp d 0 hi = min (d : Int) hi := by
  rw [clamp_eq_max_min (by omega)]
  omega

theorem wregReadBack_of_nds {i : Nat} (h : 0x80 ≤ i) (d : Nat) : wregReadBack i d = min (d : Int) 32768 := by
  unfold wregReadBack
  rw [if_neg (by omega), if_neg (by omega), if_neg (by omega), if_neg (by omega), if_pos (by simp [h])]

/-- The rows of Operands.lean and the table of Safety.lean store the same value (R492, R493). -/
theorem stored_eq_wregReadBack {reg : Reg} {row : WriteRow} (hrow : writeRow reg = some row) {data : BitVec 20}
    (hfits : row.fits data = true) : row.stored data = wregReadBack (indexOf reg).toNat data.toNat := by
  cases reg with
  | ctrl | pwkt | pwref | pwvel =>
    cases hrow
    rfl
  | pwb side o =>
    cases hrow
    cases side <;> fin_cases o <;> rfl
  | bendrange =>
    cases hrow
    exact clamp_zero_natCast data.toNat 24
  | ratio =>
    cases hrow
    exact (clamp_eq_max_min (by decide)).trans (by rw [min_comm]; rfl)
  | modidx =>
    cases hrow
    exact clamp_zero_natCast data.toNat 16384
  | vbdepth =>
    cases hrow
    exact clamp_zero_natCast data.toNat 32768
  | asym c =>
    cases hrow
    fin_cases c <;> exact clamp_zero_natCast data.toNat 32768
  | nds n =>
    cases hrow
    have hindex : 0x80 ≤ (indexOf (.nds n)).toNat := by
      have hn := n.isLt
      simp only [indexOf]
      bv_omega
    rw [wregReadBack_of_nds hindex]
    exact clamp_zero_natCast data.toNat 32768
  | fb =>
    cases hrow
    have hvalue := sext_of_lt (n := 16) (of_decide_eq_true hfits)
    exact (clamp_eq_max_min (by decide)).trans (by rw [WriteRow.value, if_pos rfl, hvalue]; rfl)
  | detune m =>
    cases hrow
    fin_cases m <;> exact sext_of_lt (n := 19) data.isLt
  | _ => cases hrow

/-- A WREG that is well-formed, to another register than STATUS, stores the value of the register's row (R490). -/
theorem writeRegister_stores {index : BitVec 8} {data : BitVec 20} (hindex : index ≠ 0x01)
    (hwf : (Instr.wreg index data).wellFormed = true) (s : State) :
    ∃ reg row, regOf index = some reg ∧ writeRow reg = some row ∧ row.fits data = true ∧
      writeRegister index data s = s.withRegs (s.regs.write reg (row.stored data)) := by
  obtain ⟨haccepted, hwidth, hwaves⟩ := (wreg_wellFormed_iff index data).mp hwf
  obtain hreg | ⟨reg, row, hreg, hrow⟩ := regOf_of_accepted haccepted
  · exact absurd ((regOf_status_iff index).mp hreg) hindex
  · obtain ⟨-, -, hrowWidth⟩ := writable_index hreg hrow
    have hfits : row.fits data = true := by simpa [WriteRow.fits, ← hrowWidth] using hwidth
    refine ⟨reg, row, hreg, hrow, hfits, ?_⟩
    rw [writeRegister_of_writable hreg hrow]
    obtain ⟨hwide, -⟩ | ⟨-, hctrl, hillegal, -⟩ | ⟨-, -, heq⟩ :=
      writeChecked_cases (encode (.wreg index data)) reg row data s
    · rw [hfits] at hwide
      cases hwide
    · subst hctrl
      have hzero := (regOf_ctrl_iff index).mp hreg
      rw [illegalCtrl_eq, hwaves (congrArg BitVec.toNat hzero)] at hillegal
      cases hillegal
    · exact heq

/-- Settles O40, from the register that the write shows and the frame of the write. -/
theorem wregStoresTableValue : Obligations.WregStoresTableValue := by
  intro index data s hindex hwf
  obtain ⟨reg, row, hreg, hrow, hfits, heq⟩ := writeRegister_stores hindex hwf s
  refine ⟨_, reg, rfl, hreg, fun P => ?_, ?_⟩
  · rw [heq]
    simp only [hostRead, hreg]
    rw [view_write_self P s hrow, shown_stored hrow hfits, stored_eq_wregReadBack hrow hfits,
      indexOf_of_writable hreg hrow]
    rfl
  · rw [heq]
    exact withWrite_changesOnly s reg _

end Sys2Proof.Machine
end

section
/-! SUPPORT. Proofs about the control commands of 45_control_commands.md: what PHRST zeroes and what it leaves (O43). -/

namespace Sys2Proof.Machine

/-- A phase and a feedback value outside the masks read as before, and no other register depends on either (R521). -/
theorem withRestart_changesOnly (pmask : BitVec 2) (smask : BitVec 4) (s : State) :
    ChangesOnly (phrstChanges pmask smask) s (s.withRegs (s.regs.restart smask pmask)) := by
  refine ⟨fun P reg hreg => ?_, ⟨rfl, rfl, rfl, rfl, rfl, rfl⟩⟩
  cases reg with
  | phase n =>
    have hunselected : smask.getLsbD n = false := hreg
    simp only [view, State.withRegs_regs, Regs.restart_phase_get, hunselected, Bool.false_eq_true, if_false]
  | prev c =>
    have hunselected : pmask.getLsbD c = false := hreg
    simp only [view, State.withRegs_regs, Regs.restart_prev_get, hunselected, Bool.false_eq_true, if_false]
  | _ => rfl

/-- Settles O43, from the restarted phases and feedback values and the frame of a restart. -/
theorem phrstZeroesSelected : Obligations.PhrstZeroesSelected := by
  intro pmask smask s
  refine ⟨_, rfl, fun n hselected => ?_, fun c hselected => ?_, withRestart_changesOnly pmask smask s⟩
  · exact (Regs.restart_phase_get s.regs smask pmask n).trans (if_pos hselected)
  · exact (Regs.restart_prev_get s.regs smask pmask c).trans (if_pos hselected)

end Sys2Proof.Machine
end

section
/-! SUPPORT. Proofs about the exceptions of 60_exceptions.md: every action answers and only a drain of queued words latches
an error (O7), the word that raises (O46), and the interrupt line (O49). -/

namespace Sys2Proof.Machine

/-! ### Every action goes on (R600, R605) -/

/-- Every action of the HOST or the ENGINE answers a next state. -/
theorem step_next (s : State) : ∃ t, step s = .next t := by
  obtain ⟨script, rdData, h⟩ | ⟨_, _, _, _, h⟩ | ⟨_, _, _, h⟩ | ⟨_, _, _, h⟩ := step_cases s
  · obtain ⟨_, -, hmove⟩ := engineMove_next { s with script := script, rdData := rdData }
    exact ⟨_, h.trans hmove⟩
  all_goals exact ⟨_, h⟩

/-- A flag that samples leave rises only where the ENGINE drains a queue that holds words. -/
theorem drains_of_flag_rises {flag : Regs → Bool}
    (hsample : ∀ P idle u, flag (sampleStep P idle u).regs = flag u.regs) {s t : State} (h : step s = .next t)
    (hlow : flag s.regs = false) (hhigh : flag t.regs = true) : EngineMoves s ∧ s.blkpos = 0 ∧ s.q ≠ [] := by
  have hne : flag t.regs ≠ flag s.regs := by simp [hlow, hhigh]
  obtain ⟨hmoves, hblk, w, hw, -⟩ := exists_word_of_step_changes hsample h hne
  exact ⟨hmoves, hblk, List.ne_nil_of_mem hw⟩

theorem sampleStep_err (P : Params) (idle : Bool) (s : State) : (sampleStep P idle s).regs.err = s.regs.err := by
  obtain ⟨phase, prev, hregs⟩ := sampleStep_regs P idle s
  rw [hregs]

/-- Settles O7: an action answers; what raises ERR is a queued word, since a sample leaves it; a push with room and a read
answer the registers they start from. -/
theorem stepAlwaysGoesOn : Obligations.StepAlwaysGoesOn := by
  intro s
  obtain ⟨t, h⟩ := step_next s
  refine ⟨t, h, drains_of_flag_rises sampleStep_err h, fun w rest hscript hroom => ?_, fun i rest hscript => ?_⟩
  · cases h.symm.trans ((hostPushAppends s w rest hscript).1 hroom)
    rfl
  · cases h.symm.trans (hostReadHasNoSideEffect.1 s i rest hscript)
    rfl

/-! ### The word that raises (R601, R603, R604) -/

/-- On the read port a raised error shows in STATUS and ERRCMD alone. -/
theorem latchError_changesOnly (e : CmdError) (w : Word) (s : State) :
    ChangesOnly errorChanges s (latchError e w s) := by
  obtain ⟨_, heq⟩ | ⟨_, heq⟩ := latchError_cases e w s
  · rw [heq]
    exact ⟨fun _ _ _ => rfl, ⟨rfl, rfl, rfl, rfl, rfl, rfl⟩⟩
  · rw [heq]
    refine ⟨fun P reg hreg => ?_, ⟨rfl, rfl, rfl, rfl, rfl, rfl⟩⟩
    cases reg with
    | status | errcmd => cases hreg
    | _ => rfl

/-- A word that decodes to a command that is not well-formed is the word of a refused WREG, and latches its error. -/
theorem applyWord_of_illFormed {w : Word} {i : Instr} (hdecode : decode w = .instr i) (hill : i.wellFormed = false)
    (s : State) : ∃ e, applyWord w s = .next (latchError e w s) := by
  have hword : encode i = w := legalWordIsUnique w i hdecode
  cases i with
  | wreg index data =>
    obtain ⟨e, -, heq⟩ := writeRegister_of_illFormed hill s
    refine ⟨e, ?_⟩
    rw [hword] at heq
    simp only [applyWord, hdecode, exec, execWreg, heq]
  | _ => cases hill

/-- Settles O46: either kind of erroneous word answers through `latchError`, which leaves a latched error and writes the
word into a clear latch. -/
theorem erroneousWordOnlyLatches : Obligations.ErroneousWordOnlyLatches := by
  intro w s ws herroneous
  have hlatches : ∃ e, applyWord w s = .next (latchError e w s) := by
    obtain ⟨e, hdecode⟩ | ⟨i, hdecode, hill⟩ := herroneous
    · exact ⟨e, by simp only [applyWord, hdecode]⟩
    · exact applyWord_of_illFormed hdecode hill s
  obtain ⟨e, happly⟩ := hlatches
  refine ⟨_, happly, latchError_changesOnly e w s, ?_, latchError_of_latched, fun hclear => ?_⟩
  · rw [applyAll, happly, andThen_next]
  · rw [latchError_of_clear hclear]
    exact ⟨rfl, rfl⟩

/-! ### The interrupt line (R607, R608) -/

/-- ERR is bit 0 of STATUS (R103). -/
theorem statusWord_getLsbD_zero (r : Regs) : (statusWord r).getLsbD 0 = r.err := by
  rw [statusWord, BitVec.getLsbD_setWidth, BitVec.getLsbD_append]
  simp

theorem irqOut_sampleStep (P : Params) (idle : Bool) (s : State) : irqOut (sampleStep P idle s) = irqOut s := by
  obtain ⟨phase, prev, hregs⟩ := sampleStep_regs P idle s
  rw [irqOut, hregs]
  rfl

/-- Settles O49: the bits of the two words on the read port; the line is a flag of the registers that samples leave. -/
theorem interruptFollowsErrorLatch : Obligations.InterruptFollowsErrorLatch := by
  refine ⟨fun P s => ?_, fun s t h => drains_of_flag_rises (flag := fun r => r.err && r.irqen) irqOut_sampleStep h⟩
  have hirqen : (view P s .ctrl).getLsbD 5 = s.regs.irqen := by simp [view, Regs.irqen]
  rw [hirqen, view, statusWord_getLsbD_zero, irqOut]

end Sys2Proof.Machine
end

section
/-! SUPPORT. Proofs about the reset and the hazards of 70_reset_and_hazards.md: the reset state is legal (O12), what SRESET
sets and leaves (O44), and what every index reads as after reset (O59). -/

namespace Sys2Proof.Machine

/-! ### Reset and SRESET (R700, R701) -/

/-- Settles O12: the reset registers are legal, the queue is empty, BLKPOS is 0 of a positive `P_BLOCK`, and the frame is
the zeros of log entry 6. -/
theorem resetIsLegal : Obligations.ResetIsLegal where
  regs := Regs.reset_legal
  queue := Nat.zero_le _
  blkpos := Nat.succ_pos _
  frame := ⟨by decide, by decide, by decide, fun _ => ⟨rfl, rfl⟩⟩

/-- QLEVEL and BLKPOS apart, a register reads from the registers alone (R123, R124). -/
theorem view_eq_of_regs_eq (P : Params) {s t : State} (h : t.regs = s.regs) {reg : Reg} (hqlevel : reg ≠ .qlevel)
    (hblkpos : reg ≠ .blkpos) : view P t reg = view P s reg := by
  cases reg with
  | qlevel => exact absurd rfl hqlevel
  | blkpos => exact absurd rfl hblkpos
  | _ => simp only [view, h]

/-- Settles O44: SRESET replaces the registers by the reset ones, and what reads from the registers alone follows. -/
theorem sresetRestoresResetValues : Obligations.SresetRestoresResetValues := by
  intro s
  have hregs : (s.withRegs Regs.reset).regs = State.reset.regs := rfl
  exact ⟨_, rfl, hregs, ⟨rfl, rfl, rfl, rfl, rfl, rfl⟩, fun P _ => view_eq_of_regs_eq P hregs⟩

/-! ### What the reset state reads as (R700) -/

/-- At the index of a register the read port shows that register (R205). -/
theorem hostRead_indexOf (P : Params) (s : State) (reg : Reg) : hostRead P s (indexOf reg) = view P s reg := by
  rw [hostRead, regOf_indexOf]

theorem hostRead_reset_nds (P : Params) (n : Fin 128) : hostRead P State.reset (0x80 + BitVec.ofNat 8 n) = 32768 := by
  have hentry : Regs.reset.ndsAt n = 32768 := Vector.getElem_replicate n.isLt
  have hview : view P State.reset (.nds n) = 32768 := congrArg (BitVec.setWidth 32) hentry
  exact (hostRead_indexOf P State.reset (.nds n)).trans hview

/-- Without a bend or a detune the pitch after reset is that of note -1 (R401). -/
theorem pitchOf_reset : ∀ n : Slot, pitchOf Regs.reset n = -65536 := by decide

/-- After reset every slot is tuned to note -1 at the ratio 1.0, since CTRL selects SUB mode (R405, R406). -/
theorem hostRead_reset_ftw (P : Params) (n : Fin 4) :
    hostRead P State.reset (0x20 + BitVec.ofNat 8 n) = pitchToFtw P.sampleRate (-65536) 256 := by
  have hread : hostRead P State.reset (0x20 + BitVec.ofNat 8 n) = ftwOf P Regs.reset n :=
    hostRead_indexOf P State.reset (.ftw n)
  rw [hread, ftwOf_of_subMode P rfl, pitchOf_reset]

/-- The reset state is at a block boundary with nothing to drain. -/
theorem atBoundary_reset : atBoundary State.reset = .next State.reset := rfl

/-- The first step after reset emits silence (R441, R700). -/
theorem engineStep_reset_silent (P : Params) (idle : Bool) :
    ∃ t, engineStep P idle State.reset = .next t ∧ t.frame = ⟨0, 0, false, false, 0⟩ :=
  ⟨_, engineStep_of_atBoundary atBoundary_reset P idle, rfl⟩

/-- Settles O59: the fixed rows by evaluation; NDS, the unmapped indices and FTW each by one argument for the whole range;
then the ports and the first step. -/
theorem resetReads : Obligations.ResetReads := by
  obtain ⟨-, hunmapped, -⟩ := hostReadHasNoSideEffect
  obtain ⟨-, hftw, -⟩ := tuningWordVectors
  refine ⟨fun P => ?_, hftw, rfl, rfl, engineStep_reset_silent⟩
  exact ⟨rfl, rfl, rfl, rfl, rfl, rfl, rfl, rfl, rfl, rfl, rfl, rfl, rfl, rfl, rfl, rfl, rfl, rfl, rfl, rfl, rfl, rfl, rfl,
    rfl, rfl, rfl, rfl, rfl, rfl, rfl, rfl, rfl, rfl, rfl, rfl,
    hostRead_reset_nds P, hunmapped P State.reset, hostRead_reset_ftw P⟩

end Sys2Proof.Machine
end
